-- ==== Sys2Proof/Word.lean ====
section
/-! DEFINITION. The word types of the FTD: a byte, the 16-bit values (tag, trace length, counts) and the 32-bit timestamp. -/

namespace Sys2Proof

/-- A byte of the input stream or of the frame buffer (`20_memory.md` R23, R29). -/
abbrev Byte := BitVec 8

/-- A 16-bit value: the tag, the trace length, the read count, an index (`10_state.md` R12 to R14, R8). -/
abbrev Half := BitVec 16

/-- A 32-bit value: the trace timestamp (`30_encoding.md` R43). -/
abbrev Word := BitVec 32

end Sys2Proof
end

