-- ==== Sys2Proof/Config.lean ====
section
/-! DEFINITION. The fixed protocol constants of `00_scope.md` R2 and R5, and the one implementation parameter, DRAIN_MAX (R4), at the value
`State.reset` takes. -/

namespace Sys2Proof.Config

/-- `TAG_DEBUG` (R2). -/
def tagDebug : Half := 0x0100

/-- `TAG_TRACE` (R2). -/
def tagTrace : Half := 0x0318

/-- `TAG_END` (R2). -/
def tagEnd : Half := 0xDEAD

/-- `DBG_PAYLOAD_LEN`, the bytes of a debug frame after the tag (R2). -/
def dbgPayloadLen : Nat := 542

/-- `DBG_LEN_OFF`, the payload offset of the 8-byte message length (R2). -/
def dbgLenOff : Nat := 6

/-- `DBG_TEXT_OFF`, the payload offset of the debug text (R2). -/
def dbgTextOff : Nat := 30

/-- `DBG_TEXT_MAX`, the bytes of the debug text area (R3). -/
def dbgTextMax : Nat := 512

/-- `TRC_HDR_LEN`, the bytes of a trace record's header (R2). -/
def trcHdrLen : Nat := 8

/-- `DIR_MASK`, the direction flag's bit of `rawDataLen` (R2). -/
def dirMask : Half := 0x8000

/-- The bytes of the tag field, and of the trace-length field (R2). -/
def tagLen : Nat := 2

/-- `FB_SIZE`, the bytes of the frame buffer (R5). -/
def fbSize : Nat := 65535

/-- DESIGN CHOICE (unsafe, log 4): the value of DRAIN_MAX in `State.reset`. Every natural number conforms (R4, I2); it is a field of State, and no
statement rests on this value. -/
def drainMaxAtReset : Nat := 4

/-- The width in bits of `dcnt` for a given DRAIN_MAX, `max(1, ceil(log2(DRAIN_MAX + 1)))` (`10_state.md` R17). -/
def dcntWidth (drainMax : Nat) : Nat := max 1 (Nat.clog 2 (drainMax + 1))

end Sys2Proof.Config
end

