-- ==== Sys2Proof/Syntax.lean ====
section
/-! DEFINITION. The four frame operations (`opcode_table.json`; `43_frame_operations.md`): the FTD's instruction set, one constructor a row. The bytes
of a frame after its tag are data that later cycles read (`20_memory.md` R36), so they are no operands of the term. -/

namespace Sys2Proof

/-- A frame operation, selected by the tag (`30_encoding.md` R39). -/
inductive Instr where
  /-- DBG, the debug-message frame (tag 0x0100; R72). -/
  | dbg
  /-- TRC, the trace-record frame (tag 0x0318; R74). -/
  | trc
  /-- END, the snoop-stopped frame (tag 0xDEAD; R76). -/
  | endSession
  /-- UNREC, the unrecognized-tag condition (any other tag; R77), with the tag it carries. -/
  | unrec (tag : Half)
deriving DecidableEq, Repr

end Sys2Proof
end

