-- ==== Sys2Proof/WellFormed.lean ====
section
/-! DEFINITION. Which terms stand for a frame the wire can carry: UNREC is the complement of the three recognized tags (`30_encoding.md` R39). -/

namespace Sys2Proof

/-- The tag is one of the 65533 values of class UNREC (R39, R44 (a)). -/
def isUnrecTag (tag : Half) : Bool :=
  tag != Config.tagDebug && tag != Config.tagTrace && tag != Config.tagEnd

/-- An UNREC term is well formed when its tag is none of the recognized ones; the other terms have no operand to check. -/
def Instr.wf : Instr → Bool
  | .dbg => true
  | .trc => true
  | .endSession => true
  | .unrec tag => isUnrecTag tag

end Sys2Proof
end

