-- ==== Sys2Proof/Decode.lean ====
section
/-! DEFINITION. The tag word: its byte order (`30_encoding.md` R38), its classification (R39), the decoder on bytes and the encoder. -/

namespace Sys2Proof

/-- The 16-bit value of two bytes, the first on the wire the least significant (`20_memory.md` R26): `b0 + 256 * b1`. -/
def halfOfBytes (b0 b1 : Byte) : Half := b1 ++ b0

/-- Bits 7..0 of a 16-bit value: the byte that comes first on the wire. -/
def loByte (h : Half) : Byte := h.extractLsb' 0 8

/-- Bits 15..8 of a 16-bit value: the byte that comes second on the wire. -/
def hiByte (h : Half) : Byte := h.extractLsb' 8 8

/-- `h[7:0] <- b`. -/
def setLoByte (h : Half) (b : Byte) : Half := halfOfBytes b (hiByte h)

/-- `h[15:8] <- b`. -/
def setHiByte (h : Half) (b : Byte) : Half := halfOfBytes (loByte h) b

/-- `TagClass(T)`: the operation a tag selects, by exact equality of all 16 bits (R39). -/
def tagClass (tag : Half) : Instr :=
  if tag = Config.tagDebug then .dbg
  else if tag = Config.tagTrace then .trc
  else if tag = Config.tagEnd then .endSession
  else .unrec tag

/-- The tag that selects an operation (R39). -/
def Instr.tag : Instr → Half
  | .dbg => Config.tagDebug
  | .trc => Config.tagTrace
  | .endSession => Config.tagEnd
  | .unrec tag => tag

/-- Why a list of bytes holds no tag. -/
inductive DecodeReject where
  /-- No byte at all. -/
  | noTag
  /-- One byte only: half a tag (R38). -/
  | halfTag
deriving DecidableEq, Repr

/-- What decoding a list of bytes gives: an operation and the bytes after its tag, or a rejection by name. -/
inductive Decoded where
  | instr (i : Instr) (rest : List Byte)
  | reject (r : DecodeReject)
deriving DecidableEq, Repr

/-- Decoding: the first two bytes are the tag, little-endian (R38), and every tag has a class (R39). -/
def decode : List Byte → Decoded
  | [] => .reject .noTag
  | [_] => .reject .halfTag
  | b0 :: b1 :: rest => .instr (tagClass (halfOfBytes b0 b1)) rest

/-- The wire bytes of an operation's tag, low byte first (R38, R45 `TAG`). -/
def encode (i : Instr) : List Byte := [loByte i.tag, hiByte i.tag]

/-- The `n` low bytes of a number, least significant first: a table word laid out as the wire carries it. -/
def bytesOfNat : Nat → Nat → List Byte
  | 0, _ => []
  | n + 1, w => BitVec.ofNat 8 w :: bytesOfNat n (w / 256)

/-- The bytes of a table word of `nbits` bits, bits above `nbits` zero, at least the two bytes of a tag. -/
def tableBytes (nbits w : Nat) : List Byte := bytesOfNat (max Config.tagLen ((nbits + 7) / 8)) (w % 2 ^ nbits)

/-- The operation the decoder reads from a table word. -/
def decodeTableWord (nbits w : Nat) : Option Instr :=
  match decode (tableBytes nbits w) with
  | .instr i _ => some i
  | .reject _ => none

end Sys2Proof
end

