-- ==== Sys2Proof/Machine/State.lean ====
section
/-! DEFINITION. The state of the FTD (`10_state.md` section 3, `20_memory.md` section 1), the pins its environment drives (R8), the events it hands over (R71),
the reasons a step can stop, and the state after reset (R89). -/

namespace Sys2Proof.Machine

/-- `st`, the dispatcher state (R11). Codes 9 to 15 have no value here, as I5 allows (log 5). -/
inductive St where
  /-- 0 `S_IDLE`: waits for `start`. -/
  | idle
  /-- 1 `S_TAG`: reads the 2 tag bytes. -/
  | tag
  /-- 2 `S_DBG`: reads the 542 debug payload bytes. -/
  | dbg
  /-- 3 `S_TLEN`: reads the 2 trace-length bytes. -/
  | tlen
  /-- 4 `S_TBUF`: reads the `tlen` trace-buffer bytes. -/
  | tbuf
  /-- 5 `S_DEC`: applies the trace-record check. -/
  | dec
  /-- 6 `S_EMIT`: presents one event and waits for the handshake. -/
  | emit
  /-- 7 `S_DRAIN`: discards input bytes. -/
  | drain
  /-- 8 `S_TERM`: stopped. -/
  | term
deriving DecidableEq, Repr

/-- `evk`, the kind of the pending event (R15). -/
inductive EventKind where
  /-- 0 `K_DEBUG`. -/
  | debug
  /-- 1 `K_TRACE`. -/
  | trace
  /-- 2 `K_END`. -/
  | ended
  /-- 3 `K_UNREC`. -/
  | unrec
deriving DecidableEq, Repr

/-- `cause`, why the session ended (R16, R78). Codes 6 and 7 have no value here, as I6 allows (log 5). -/
inductive Cause where
  /-- 0 `C_NONE`: the session has not ended. -/
  | noCause
  /-- 1 `C_SESSION_ENDED`. -/
  | sessionEnded
  /-- 2 `C_UNRECOGNIZED_TAG`. -/
  | unrecognizedTag
  /-- 3 `C_TRUNCATED_FRAME`. -/
  | truncatedFrame
  /-- 4 `C_TRUNCATED_RECORD`. -/
  | truncatedRecord
  /-- 5 `C_TRANSPORT_CLOSED`. -/
  | transportClosed
deriving DecidableEq, Repr

/-- The errors `raise` takes (R79). -/
inductive Error where
  | truncatedFrame
  | truncatedRecord
  | transportClosed
deriving DecidableEq, Repr

/-- The two values of the direction flag, named by meaning (R49). -/
inductive Direction where
  | readerToTag
  | tagToReader
deriving DecidableEq, Repr

/-- What a trace event carries (R71), read from the event port: `dataLen` is `ev_len`. -/
structure TraceEvent where
  timestamp : Word
  duration : Half
  direction : Direction
  dataLen : Half
  data : List Byte
  parity : List Byte
  parOk : List Bool
  pbit : List Bool
deriving DecidableEq, Repr

/-- The four events (R71). -/
inductive Event where
  | debugMessage (text : List Byte) (clamped : Bool)
  | traceRecord (t : TraceEvent)
  | sessionEnded
  | unrecognizedTag (tag : Half)
deriving DecidableEq, Repr

/-- The input pins as one rising edge of `clk` samples them (R8). `clk` itself is the step (R7). -/
structure Inputs where
  rst : Bool
  start : Bool
  inValid : Bool
  inData : Byte
  inTimeout : Bool
  inClosed : Bool
  evReady : Bool
  plIdx : Half
deriving DecidableEq, Repr

/-- The frame buffer's listed bytes, offsets rising, none equal to what an unlisted offset reads as (R23; log 3). -/
abbrev Memory := List Host.Cell

/-- The state of the FTD: its registers (R11 to R18), its frame buffer (R23), its parameter DRAIN_MAX (R4), the pins its environment will drive
(R8; log 1), and the observation of the run (R69; log 7), which no rule reads. -/
structure State where
  /-- `st[3:0]` (R11). -/
  st : St
  /-- `cnt[15:0]`, the bytes received by the current read (R12). -/
  cnt : Half
  /-- `tag[15:0]`, the tag of the current frame (R13). -/
  tag : Half
  /-- `tlen[15:0]`, the trace length (R14). -/
  tlen : Half
  /-- `evk[1:0]`, the kind of the pending event (R15). -/
  evk : EventKind
  /-- `cause[2:0]`, why the session ended (R16). -/
  cause : Cause
  /-- `dcnt`, the bytes the drain has discarded (R17). -/
  dcnt : Nat
  /-- `rdq`, the read-start flag (R18). -/
  rdq : Bool
  /-- FB, the frame buffer (R23). -/
  fb : Memory
  /-- DRAIN_MAX, the implementation parameter (R4). No step writes it. -/
  drainMax : Nat
  /-- The pins at the coming edges, the next edge first (R8). -/
  inputs : List Inputs
  /-- The events handed over so far, in handshake order (R69 (a)). -/
  events : List Event
  /-- The input bytes taken so far (R69 (b)). -/
  taken : Nat
deriving DecidableEq, Repr

/-- The reasons a step can stop with a fault. -/
inductive Fault where
  /-- Raised by `memWrite` for an offset the frame buffer does not have (R23: offsets are below 65535). Safe (log 6): a state that meets the invariant
  `Safety.Inv` never raises it. -/
  | frameBufferOffset (off : Nat)
deriving DecidableEq, Repr

/-- The reasons a step can be refused. -/
inductive Refusal where
  /-- Raised by an arm of `exec` whose instruction has no meaning yet; no arm does. Safe. -/
  | notModelled (mnemonic : String)
deriving DecidableEq, Repr

/-- What a step of the FTD answers. -/
abbrev Result := Host.Outcome State Fault Refusal

/-- The machine after reset for a given DRAIN_MAX and a given environment: every register at the value R89 gives (R11 to R18); the frame buffer lists
nothing (DESIGN CHOICE, log 3); nothing observed. -/
def State.resetWith (drainMax : Nat) (inputs : List Inputs) : State where
  st := .idle
  cnt := 0
  tag := 0
  tlen := 0
  evk := .debug
  cause := .noCause
  dcnt := 0
  rdq := false
  fb := []
  drainMax := drainMax
  inputs := inputs
  events := []
  taken := 0

/-- The machine right after reset (R89). DESIGN CHOICE: DRAIN_MAX (log 4) and no pins listed (log 1). -/
def State.reset : State := State.resetWith Config.drainMaxAtReset []

end Sys2Proof.Machine
end

