-- ==== Sys2Proof/Machine/Ops.lean ====
section
/-! DEFINITION. The named operations the cycle rules are built from: pins, the frame buffer (`20_memory.md`), beginning a read (R57), storing a byte (R61),
the read cycle (R60), raising an error (R79), ending a session (R66), reset (R89), the idle and drain cycles (R58, R67). -/

namespace Sys2Proof.Machine

/-! ## Outcomes -/

/-- Go on from a next state; a fault or a refusal stays. -/
def andThen (o : Result) (k : State → Result) : Result :=
  match o with
  | .next s => k s
  | .fault r => .fault r
  | .refused r => .refused r

/-! ## Pins -/

/-- Every input pin at 0. -/
def Inputs.quiet : Inputs :=
  { rst := false, start := false, inValid := false, inData := 0, inTimeout := false, inClosed := false, evReady := false, plIdx := 0 }

/-- The pins the next rising edge samples (R8). DESIGN CHOICE (log 1): past the end of the list every pin is 0. -/
def State.pins (s : State) : Inputs :=
  match s.inputs with
  | [] => Inputs.quiet
  | p :: _ => p

/-! ## The frame buffer -/

/-- What a byte of the frame buffer that nothing has written reads as. DESIGN CHOICE (log 3): 0, where R23 and I1 allow any value. -/
def Memory.unlisted : Byte := 0

/-- Byte `off` of the frame buffer. -/
def Memory.read : Memory → Nat → Byte
  | [], _ => Memory.unlisted
  | (a, v) :: m, off => if a = off then v else Memory.read m off

/-- The frame buffer with byte `off` set, in canonical form. -/
def Memory.write : Memory → Nat → Byte → Memory
  | [], off, v => if v = Memory.unlisted then [] else [(off, v)]
  | (a, u) :: m, off, v =>
    if off < a then (if v = Memory.unlisted then (a, u) :: m else (off, v) :: (a, u) :: m)
    else if off = a then (if v = Memory.unlisted then m else (off, v) :: m)
    else (a, u) :: Memory.write m off v

/-- The canonical form from offset `lo` on: offsets rising, below FB_SIZE, no entry equal to what an unlisted offset reads as. -/
def Memory.wfFrom : Nat → Memory → Bool
  | _, [] => true
  | lo, (a, v) :: m => decide (lo ≤ a) && decide (a < Config.fbSize) && (v != Memory.unlisted) && Memory.wfFrom (a + 1) m

/-- The canonical form of a frame buffer. -/
def Memory.wf (m : Memory) : Bool := Memory.wfFrom 0 m

/-- `MemRead(off, n)`: the little-endian value of `n` bytes (R25, R26). -/
def memRead (m : Memory) : Nat → Nat → Nat
  | _, 0 => 0
  | off, n + 1 => (m.read off).toNat + 256 * memRead m (off + 1) n

/-- `MemWrite(off, 1, v)` (R24). An offset the frame buffer does not have is a fault (R23; log 6). -/
def memWrite (off : Nat) (v : Byte) (s : State) : Result :=
  if off < Config.fbSize then .next { s with fb := s.fb.write off v } else .fault (.frameBufferOffset off)

/-! ## States and reads -/

/-- The read states (R11). -/
def St.isRead : St → Bool
  | .tag => true
  | .dbg => true
  | .tlen => true
  | .tbuf => true
  | .idle => false
  | .dec => false
  | .emit => false
  | .drain => false
  | .term => false

/-- The code of a state (R11). -/
def St.code : St → BitVec 4
  | .idle => 0
  | .tag => 1
  | .dbg => 2
  | .tlen => 3
  | .tbuf => 4
  | .dec => 5
  | .emit => 6
  | .drain => 7
  | .term => 8

/-- The code of an event kind (R15). -/
def EventKind.code : EventKind → BitVec 2
  | .debug => 0
  | .trace => 1
  | .ended => 2
  | .unrec => 3

/-- The code of a cause (R16, R78). -/
def Cause.code : Cause → BitVec 3
  | .noCause => 0
  | .sessionEnded => 1
  | .unrecognizedTag => 2
  | .truncatedFrame => 3
  | .truncatedRecord => 4
  | .transportClosed => 5

/-- The cause an error records (R78, R79). -/
def Error.cause : Error → Cause
  | .truncatedFrame => .truncatedFrame
  | .truncatedRecord => .truncatedRecord
  | .transportClosed => .transportClosed

/-- `n(st)`, the length of the read in each read state (R59); 0 in a state that reads nothing, as `rd_len` shows it (R20). -/
def readLen (s : State) : Nat :=
  match s.st with
  | .tag => Config.tagLen
  | .dbg => Config.dbgPayloadLen
  | .tlen => Config.tagLen
  | .tbuf => s.tlen.toNat
  | .idle => 0
  | .dec => 0
  | .emit => 0
  | .drain => 0
  | .term => 0

/-- `in_ready` (R19). -/
def inReady (s : State) : Bool := s.st.isRead || (decide (s.st = .drain) && decide (s.dcnt < s.drainMax))

/-! ## Errors, endings and reset -/

/-- `raise E()` (R79): the one way an error is taken. No register is saved, nothing returns (R83): the drain follows, then `S_TERM`. -/
def raiseError (e : Error) (s : State) : State :=
  { s with cause := e.cause, st := .drain, dcnt := 0, cnt := 0 }

/-- The end of a session by its END or UNREC event (R66): the cause is written at the handshake. -/
def endSession (c : Cause) (s : State) : State :=
  { s with cause := c, st := .drain, dcnt := 0 }

/-- `Reset()` (R89): every register at its reset value; the frame buffer is not changed. The only way out of `S_TERM` (R68, R83). -/
def resetRegisters (s : State) : State :=
  { s with st := .idle, cnt := 0, tag := 0, tlen := 0, evk := .debug, cause := .noCause, dcnt := 0, rdq := false }

/-! ## Reads -/

/-- `StartRead(x)` (R57). -/
def startRead (x : St) (s : State) : State :=
  { s with st := x, cnt := 0, rdq := true }

/-- Entering `S_EMIT` with an event of kind `k` pending (R64, R65). -/
def present (k : EventKind) (s : State) : State :=
  { s with evk := k, st := .emit }

/-- `Store(st, c, b)` (R61). In a state that reads nothing there is no byte to store. -/
def store (c : Nat) (b : Byte) (s : State) : Result :=
  match s.st with
  | .tag => .next { s with tag := if c = 0 then setLoByte s.tag b else setHiByte s.tag b }
  | .tlen => .next { s with tlen := if c = 0 then setLoByte s.tlen b else setHiByte s.tlen b }
  | .dbg => memWrite c b s
  | .tbuf => memWrite c b s
  | .idle => .next s
  | .dec => .next s
  | .emit => .next s
  | .drain => .next s
  | .term => .next s

/-- `TimeoutItem(c)` (R62): the idle retry, or TruncatedFrame. -/
def timeoutItem (c : Nat) (s : State) : State :=
  if s.st = .tag ∧ c = 0 then startRead .tag s else raiseError .truncatedFrame s

/-- A `Byte` item that does not complete the read is counted (R61), unless a `Timeout` item follows in the same cycle (R60, R62). The count is a
natural number (`00_scope.md` section 4); the register keeps its low 16 bits (log 9). -/
def countByte (c : Nat) (s : State) : State :=
  if s.pins.inTimeout then timeoutItem c s else { s with cnt := BitVec.ofNat 16 c }

/-- `ReadCycle()` (R60): closed before byte before timeout. `complete` is what the completed read does, with `cnt` already 0 (R64). -/
def readCycle (complete : State → Result) (s : State) : Result :=
  if s.pins.inClosed then .next (raiseError .transportClosed s)
  else if s.pins.inValid then
    andThen (store s.cnt.toNat s.pins.inData s) fun t =>
      if s.cnt.toNat + 1 = readLen s then complete { t with cnt := 0 }
      else .next (countByte (s.cnt.toNat + 1) t)
  else if s.pins.inTimeout then .next (timeoutItem s.cnt.toNat s)
  else .next s

/-! ## Cycles outside the reads -/

/-- `IdleCycle()` (R58). -/
def idleCycle (s : State) : State := if s.pins.start then startRead .tag s else s

/-- `EmitCycle()` (R66): wait for the event handshake; `after` is what the handshake does. -/
def awaitHandshake (after : State → State) (s : State) : State := if s.pins.evReady then after s else s

/-- `DrainCycle()` (R67). -/
def drainCycle (s : State) : State :=
  if s.pins.inClosed = true ∨ s.pins.inValid = false ∨ s.dcnt = s.drainMax then { s with st := .term }
  else { s with dcnt := s.dcnt + 1 }

/-! ## The items of a read cycle -/

/-- The input items one cycle presents to a read (R60). -/
inductive InputItem where
  | byte (b : Byte)
  | timeout
  | closed
deriving DecidableEq, Repr

/-- `items` of R60. -/
def inputItems (p : Inputs) : List InputItem :=
  if p.inClosed then [.closed]
  else (if p.inValid then [.byte p.inData] else []) ++ (if p.inTimeout then [.timeout] else [])

/-- Taking items in order with local count `c`, stopping at the first that ends the read (R60 to R64): a specification of `readCycle`, which the step
does not call. -/
def takeItems (complete : State → Result) : List InputItem → Nat → State → Result
  | [], c, s => .next { s with cnt := BitVec.ofNat 16 c }
  | .closed :: _, _, s => .next (raiseError .transportClosed s)
  | .timeout :: _, c, s => .next (timeoutItem c s)
  | .byte b :: rest, c, s =>
    andThen (store c b s) fun t =>
      if c + 1 = readLen s then complete { t with cnt := 0 } else takeItems complete rest (c + 1) t

end Sys2Proof.Machine
end

