-- ==== Sys2Proof/Machine/Debug.lean ====
section
/-! DEFINITION. DBG, the debug-message frame (`43_frame_operations.md` R72). -/

namespace Sys2Proof.Machine

/-- One cycle of DBG (R72): when its tag is complete, the payload read begins (R64); in `S_DBG`, a read cycle, whose completion presents the
DebugMessage (R61, R64); in `S_EMIT`, the wait for the handshake, which begins the next tag read (R66). In a state that is no state of a DBG frame the
operation does nothing; the step never runs it there (log 2). -/
def execDbg (s : State) : Result :=
  match s.st with
  | .tag => .next (startRead .dbg s)
  | .dbg => readCycle (fun t => .next (present .debug t)) s
  | .emit => .next (awaitHandshake (startRead .tag) s)
  | .idle => .next s
  | .tlen => .next s
  | .tbuf => .next s
  | .dec => .next s
  | .drain => .next s
  | .term => .next s

end Sys2Proof.Machine
end

