-- ==== Sys2Proof/Machine/Ending.lean ====
section
/-! DEFINITION. The two frames that end a session: END (`43_frame_operations.md` R76) and UNREC (R77). -/

namespace Sys2Proof.Machine

/-- One cycle of END (R76): when its tag is complete, SessionEnded is presented (R64); in `S_EMIT`, the wait for the handshake, which ends the session
with cause `C_SESSION_ENDED` (R66). In a state that is no state of an END frame the operation does nothing; the step never runs it there (log 2). -/
def execEndSession (s : State) : Result :=
  match s.st with
  | .tag => .next (present .ended s)
  | .emit => .next (awaitHandshake (endSession .sessionEnded) s)
  | .idle => .next s
  | .dbg => .next s
  | .tlen => .next s
  | .tbuf => .next s
  | .dec => .next s
  | .drain => .next s
  | .term => .next s

/-- One cycle of UNREC (R77): when its tag is complete, UnrecognizedTag is presented (R64); in `S_EMIT`, the wait for the handshake, which ends the
session with cause `C_UNRECOGNIZED_TAG` (R66). The operand is the value `Store` has already put into the `tag` register (R64), from which the event
takes it. In a state that is no state of an UNREC frame the operation does nothing; the step never runs it there (log 2). -/
def execUnrec (_tag : Half) (s : State) : Result :=
  match s.st with
  | .tag => .next (present .unrec s)
  | .emit => .next (awaitHandshake (endSession .unrecognizedTag) s)
  | .idle => .next s
  | .dbg => .next s
  | .tlen => .next s
  | .tbuf => .next s
  | .dec => .next s
  | .drain => .next s
  | .term => .next s

end Sys2Proof.Machine
end

