-- ==== Sys2Proof/Machine/Operands.lean ====
section
/-! DEFINITION. The fields an operation reads from the frame buffer: TRD, the trace record binary parser (`41_trace_record_decoder.md`), and the debug
payload's message length and text (`43_frame_operations.md` R72, R73). -/

namespace Sys2Proof.Machine

/-- `ceil8(n)`, the source's `ceil(n/8)` (`00_scope.md` section 4). -/
def ceil8 (n : Nat) : Nat := (n + 7) / 8

/-! ## TRD: field extraction (R48) -/

/-- `timestamp[31:0]` (R48). -/
def timestamp (m : Memory) : Word := BitVec.ofNat 32 (memRead m 0 4)

/-- `duration[15:0]` (R48). -/
def duration (m : Memory) : Half := BitVec.ofNat 16 (memRead m 4 2)

/-- `rawDataLen[15:0]` (R48). -/
def rawDataLen (m : Memory) : Half := BitVec.ofNat 16 (memRead m 6 2)

/-- `dir`, bit 15 of `rawDataLen` (R48). -/
def dirFlag (m : Memory) : Bool := (rawDataLen m &&& Config.dirMask) != 0

/-- `dataLen[14:0]`, the low 15 bits of `rawDataLen` (R48). -/
def dataLenBits (m : Memory) : BitVec 15 := (rawDataLen m).extractLsb' 0 15

/-- `dataLen` as a number. -/
def dataLen (m : Memory) : Nat := (dataLenBits m).toNat

/-- `plen = ceil8(dataLen)` (R48). -/
def plen (m : Memory) : Nat := ceil8 (dataLen m)

/-- `need = 8 + dataLen + plen` (R48). -/
def need (m : Memory) : Nat := Config.trcHdrLen + dataLen m + plen m

/-- The direction a flag names (R49). -/
def directionOf (dir : Bool) : Direction := if dir then .tagToReader else .readerToTag

/-! ## TRD: the record check (R50) -/

/-- The two results of the record check. -/
inductive TrdCheck where
  | ok
  | truncatedRecord
deriving DecidableEq, Repr

/-- `TRD_check(L)` (R50). -/
def trdCheck (len : Nat) (m : Memory) : TrdCheck :=
  if len < Config.trcHdrLen then .truncatedRecord
  else if len < need m then .truncatedRecord
  else .ok

/-! ## TRD: slices and parity bits (R51, R52) -/

/-- `data[i]` (R51). -/
def dataByte (m : Memory) (i : Nat) : Byte := m.read (Config.trcHdrLen + i)

/-- `parity[j]` (R51). -/
def parityByte (m : Memory) (j : Nat) : Byte := m.read (Config.trcHdrLen + dataLen m + j)

/-- `pbit(i)`: bit `7 - (i mod 8)` of `parity[i div 8]` (R52). -/
def pbit (m : Memory) (i : Nat) : Bool := (parityByte m (i / 8)).getLsbD (7 - i % 8)

/-! ## The debug payload (R42, R72) -/

/-- `msgLen`, 64 bits little-endian at payload offset 6 (R42, R72). -/
def msgLen (m : Memory) : Nat := memRead m Config.dbgLenOff 8

/-- `textLen = min(msgLen, 512)` (R72). -/
def textLen (m : Memory) : Nat := min (msgLen m) Config.dbgTextMax

/-- Byte `i` of the text area (R42). -/
def textByte (m : Memory) (i : Nat) : Byte := m.read (Config.dbgTextOff + i)

end Sys2Proof.Machine
end

