-- ==== Sys2Proof/Machine/Trace.lean ====
section
/-! DEFINITION. TRC, the trace-record frame (`43_frame_operations.md` R74). -/

namespace Sys2Proof.Machine

/-- The completed trace-length read (R64): a length of 0 goes straight to the check, any other begins the buffer read. -/
def lengthComplete (s : State) : State := if s.tlen = 0 then { s with st := .dec } else startRead .tbuf s

/-- `DecCycle()` (R65): present the event, or raise TruncatedRecord. -/
def decCycle (s : State) : State :=
  match trdCheck s.tlen.toNat s.fb with
  | .ok => present .trace s
  | .truncatedRecord => raiseError .truncatedRecord s

/-- One cycle of TRC (R74): when its tag is complete, the length read begins (R64); in `S_TLEN` and `S_TBUF`, read cycles (R61, R64); in `S_DEC`, the
record check (R65); in `S_EMIT`, the wait for the handshake, which begins the next tag read (R66). In a state that is no state of a TRC frame the
operation does nothing; the step never runs it there (log 2). -/
def execTrc (s : State) : Result :=
  match s.st with
  | .tag => .next (startRead .tlen s)
  | .tlen => readCycle (fun t => .next (lengthComplete t)) s
  | .tbuf => readCycle (fun t => .next { t with st := .dec }) s
  | .dec => .next (decCycle s)
  | .emit => .next (awaitHandshake (startRead .tag) s)
  | .idle => .next s
  | .dbg => .next s
  | .drain => .next s
  | .term => .next s

end Sys2Proof.Machine
end

