-- ==== Sys2Proof/Machine/Dispatch.lean ====
section
/-! DEFINITION. One arm for each frame operation. -/

namespace Sys2Proof.Machine

def exec (i : Instr) (s : State) : Host.Outcome State Fault Refusal :=
  match i with
  | .dbg => Sys2Proof.Machine.execDbg s
  | .trc => Sys2Proof.Machine.execTrc s
  | .endSession => Sys2Proof.Machine.execEndSession s
  | .unrec tag => Sys2Proof.Machine.execUnrec tag s

end Sys2Proof.Machine
end

