-- ==== Sys2Proof/Machine/Flags.lean ====
section
/-! DEFINITION. PCHK, the byte parity validator (`40_parity_checker.md`), and the flags a consumer sees (`10_state.md` section 5). No flag is stored: each is a
function of the registers and the frame buffer. -/

namespace Sys2Proof.Machine

/-- `popcount(b)`, the number of 1 bits. -/
def popcount (b : Byte) : Nat := ((List.range 8).map fun i => (b.getLsbD i).toNat).sum

/-- `PCHK(b, p)`: the odd-parity verdict (R46). -/
def pchk (b : Byte) (p : Bool) : Bool := decide ((popcount b + p.toNat) % 2 = 1)

/-- `parOk(i) = PCHK(data[i], pbit(i))` (R53). -/
def parOk (m : Memory) (i : Nat) : Bool := pchk (dataByte m i) (pbit m i)

/-- `ev_clamp`: the debug message length exceeds the text area (R73). -/
def clampFlag (m : Memory) : Bool := decide (msgLen m > Config.dbgTextMax)

/-- `done` (R21). -/
def doneFlag (s : State) : Bool := decide (s.st = .term)

/-- `TraceRecord` (R55). -/
structure TraceRecord where
  timestamp : Word
  duration : Half
  direction : Direction
  dataLen : BitVec 15
  data : List Byte
  parity : List Byte
  parOk : List Bool
deriving DecidableEq, Repr

/-- The decoded record, none when the check fails (R55). -/
def decodeTraceRecord (len : Nat) (m : Memory) : Option TraceRecord :=
  match trdCheck len m with
  | .truncatedRecord => none
  | .ok =>
    some
      { timestamp := timestamp m
        duration := duration m
        direction := directionOf (dirFlag m)
        dataLen := dataLenBits m
        data := (List.range (dataLen m)).map (dataByte m)
        parity := (List.range (plen m)).map (parityByte m)
        parOk := (List.range (dataLen m)).map (parOk m) }

end Sys2Proof.Machine
end

