-- ==== Sys2Proof/Machine/Outputs.lean ====
section
/-! DEFINITION. The output pins (`10_state.md` R9, R19 to R22; `42_frame_dispatcher.md` R66; `43_frame_operations.md` R73, R75 to R77), each a function of the state
and `pl_idx` (R10), and what a handshake hands over (R71, R69). -/

namespace Sys2Proof.Machine

/-- The `ev_*` outputs other than `ev_valid`, and the `pl_*` outputs (R9). -/
structure EventPort where
  evKind : BitVec 2
  evTag : Half
  evTs : Word
  evDur : Half
  evDir : Bool
  evLen : Half
  evPlen : Half
  evClamp : Bool
  plByte : Byte
  plParbyte : Byte
  plPbit : Bool
  plPok : Bool
deriving DecidableEq, Repr

/-- Every output of the port at 0, as outside `S_EMIT` (R66). -/
def EventPort.zero : EventPort :=
  { evKind := 0, evTag := 0, evTs := 0, evDur := 0, evDir := false, evLen := 0, evPlen := 0, evClamp := false, plByte := 0, plParbyte := 0,
    plPbit := false, plPok := false }

/-- The port while a DebugMessage is presented (R73). -/
def debugPort (s : State) (plIdx : Half) : EventPort :=
  { EventPort.zero with
    evKind := EventKind.code .debug
    evTag := s.tag
    evLen := BitVec.ofNat 16 (textLen s.fb)
    evClamp := clampFlag s.fb
    plByte := if plIdx.toNat < textLen s.fb then textByte s.fb plIdx.toNat else 0 }

/-- The port while a TraceRecordEvent is presented (R75). -/
def tracePort (s : State) (plIdx : Half) : EventPort :=
  { EventPort.zero with
    evKind := EventKind.code .trace
    evTag := s.tag
    evTs := timestamp s.fb
    evDur := duration s.fb
    evDir := dirFlag s.fb
    evLen := (dataLenBits s.fb).zeroExtend 16
    evPlen := BitVec.ofNat 16 (plen s.fb)
    plByte := if plIdx.toNat < dataLen s.fb then dataByte s.fb plIdx.toNat else 0
    plPbit := if plIdx.toNat < dataLen s.fb then pbit s.fb plIdx.toNat else false
    plPok := if plIdx.toNat < dataLen s.fb then parOk s.fb plIdx.toNat else false
    plParbyte := if plIdx.toNat < plen s.fb then parityByte s.fb plIdx.toNat else 0 }

/-- The port while SessionEnded is presented (R76). -/
def endedPort (s : State) : EventPort := { EventPort.zero with evKind := EventKind.code .ended, evTag := s.tag }

/-- The port while UnrecognizedTag is presented (R77). -/
def unrecPort (s : State) : EventPort := { EventPort.zero with evKind := EventKind.code .unrec, evTag := s.tag }

/-- The event port for a payload index: the kind in `evk` in `S_EMIT`, 0 elsewhere (R66). -/
def eventPort (s : State) (plIdx : Half) : EventPort :=
  if s.st = .emit then
    match s.evk with
    | .debug => debugPort s plIdx
    | .trace => tracePort s plIdx
    | .ended => endedPort s
    | .unrec => unrecPort s
  else EventPort.zero

/-- `ev_valid` (R66). -/
def evValid (s : State) : Bool := decide (s.st = .emit)

/-- `status[7:0] = {cause, done, st}` (R22). -/
def statusByte (s : State) : Byte := s.cause.code ++ (BitVec.ofBool (doneFlag s) ++ s.st.code)

/-- All the output pins (R9). -/
structure Outputs where
  inReady : Bool
  rdStart : Bool
  rdLen : Half
  evValid : Bool
  port : EventPort
  isDone : Bool
  termCause : BitVec 3
  status : Byte
deriving DecidableEq, Repr

/-- The output pins for a payload index (R9, R10, R19 to R22, R66). -/
def outputs (s : State) (plIdx : Half) : Outputs :=
  { inReady := inReady s
    rdStart := s.rdq
    rdLen := BitVec.ofNat 16 (readLen s)
    evValid := evValid s
    port := eventPort s plIdx
    isDone := doneFlag s
    termCause := s.cause.code
    status := statusByte s }

/-! ## What a handshake hands over -/

/-- The event the outputs present, read through `pl_idx` (R71). -/
def presentedEvent (s : State) : Event :=
  let port := eventPort s 0
  match s.evk with
  | .debug => .debugMessage ((List.range port.evLen.toNat).map fun i => (eventPort s (BitVec.ofNat 16 i)).plByte) port.evClamp
  | .trace =>
    .traceRecord
      { timestamp := port.evTs
        duration := port.evDur
        direction := directionOf port.evDir
        dataLen := port.evLen
        data := (List.range port.evLen.toNat).map fun i => (eventPort s (BitVec.ofNat 16 i)).plByte
        parity := (List.range port.evPlen.toNat).map fun j => (eventPort s (BitVec.ofNat 16 j)).plParbyte
        parOk := (List.range port.evLen.toNat).map fun i => (eventPort s (BitVec.ofNat 16 i)).plPok
        pbit := (List.range port.evLen.toNat).map fun i => (eventPort s (BitVec.ofNat 16 i)).plPbit }
  | .ended => .sessionEnded
  | .unrec => .unrecognizedTag port.evTag

/-- The events handed over at this edge: one at an event handshake, `ev_valid = 1` and `ev_ready = 1` (R8, R66). -/
def handedOver (s : State) : List Event := if evValid s && s.pins.evReady then [presentedEvent s] else []

/-- The bytes taken at this edge: one at a byte handshake, `in_valid = 1` and `in_ready = 1` (R8). -/
def bytesTaken (s : State) : Nat := if s.pins.inValid && inReady s then 1 else 0

end Sys2Proof.Machine
end

