-- ==== Sys2Proof/Machine/Cycle.lean ====
section
/-! DEFINITION. The cycle step `Step()` (`42_frame_dispatcher.md` R56): which operation the state selects, and what every cycle does around it. -/

namespace Sys2Proof.Machine

/-- Before the case of `Step()`: `rdq <- 0` (R56, R18), and the observer records this cycle's handshakes (R69; log 7). -/
def beginCycle (s : State) : State :=
  { s with rdq := false, events := s.events ++ handedOver s, taken := s.taken + bytesTaken s }

/-- After the edge: the next cycle's pins are up (log 1). -/
def endCycle (s : State) : State := { s with inputs := s.inputs.tail }

/-- The operation whose kind is pending in `S_EMIT` (R15, R66). -/
def pendingInstr (s : State) : Instr :=
  match s.evk with
  | .debug => .dbg
  | .trace => .trc
  | .ended => .endSession
  | .unrec => .unrec s.tag

/-- The read cycle of `S_TAG`: a complete tag is classified and its operation runs (R64). -/
def tagCycle (s : State) : Result := readCycle (fun t => exec (tagClass t.tag) t) s

/-- The case of `Step()` (R56). The state register selects the operation; the frame in progress is a DBG frame in `S_DBG`, a TRC frame in `S_TLEN`,
`S_TBUF` and `S_DEC`, and in `S_EMIT` the frame whose event is pending. -/
def cycleBody (s : State) : Result :=
  match s.st with
  | .idle => .next (idleCycle s)
  | .tag => tagCycle s
  | .dbg => exec .dbg s
  | .tlen => exec .trc s
  | .tbuf => exec .trc s
  | .dec => exec .trc s
  | .emit => exec (pendingInstr s) s
  | .drain => .next (drainCycle s)
  | .term => .next s

/-- `Step()` (R56): `rst` before everything (R89), when no handshake is made or observed; otherwise the case of the state. -/
def cycle (s : State) : Result :=
  if s.pins.rst then .next (endCycle (resetRegisters s))
  else andThen (cycleBody (beginCycle s)) fun t => .next (endCycle t)

/-! ## Placing a frame where the next step runs it -/

/-- A cycle in which the adapter offers byte `b` and every other pin is 0. -/
def byteCycle (b : Byte) : Inputs := { Inputs.quiet with inValid := true, inData := b }

/-- How many zero bytes stand for the operand bytes of a frame whose length field is zero too: a debug payload, an empty trace length, nothing (R40). -/
def zeroOperandLen : Instr → Nat
  | .dbg => Config.dbgPayloadLen
  | .trc => Config.tagLen
  | .endSession => 0
  | .unrec _ => 0

/-- The state in which the tag read is one byte short (`b0` received) and the coming edges offer `b1`, then zero operand bytes, then what the environment
drove before (log 8). -/
def awaitingLastTagByte (b0 b1 : Byte) (s : State) : State :=
  { s with
    st := .tag
    cnt := 1
    tag := setLoByte s.tag b0
    inputs := (b1 :: List.replicate (zeroOperandLen (tagClass (halfOfBytes b0 b1))) 0).map byteCycle ++ s.inputs }

end Sys2Proof.Machine
end

