-- ==== Sys2Proof/Machine/Step.lean ====
section
/-! DEFINITION. One step of the machine: one rising edge of `clk` (`42_frame_dispatcher.md` R56). -/

namespace Sys2Proof.Machine

/-- One rising edge of `clk`: `Step()` on the pins at the head of `inputs` (R56). -/
def step (s : State) : Host.Outcome State Fault Refusal := cycle s

/-- The state whose very next step runs the frame operation of a table word: its first tag byte received, its second offered at the next edge (log 8). -/
def State.withFetchWord (s : State) (nbits w : Nat) : State :=
  match tableBytes nbits w with
  | b0 :: b1 :: _ => awaitingLastTagByte b0 b1 s
  | _ => s

end Sys2Proof.Machine
end

