-- ==== Sys2Proof/Machine/Stream.lean ====
section
/-! DEFINITION. Frames as bytes on the wire (`30_encoding.md` R40 to R43), the notation for input streams (R45), and the input cycles that carry them. -/

namespace Sys2Proof.Machine

/-! ## Frames (R40, R41) -/

/-- A whole frame: its class and the bytes after its tag (R40). -/
inductive Frame where
  /-- The 542 payload bytes of a debug frame. -/
  | dbg (payload : List Byte)
  /-- The trace buffer; its length is the trace length `L`. -/
  | trc (buffer : List Byte)
  | endSession
  | unrec (tag : Half)
deriving DecidableEq, Repr

/-- The frame the wire can carry: 542 payload bytes, a length that fits 16 bits, an unrecognized tag (R40, R39). -/
def Frame.wf : Frame → Bool
  | .dbg payload => decide (payload.length = Config.dbgPayloadLen)
  | .trc buffer => decide (buffer.length < 65536)
  | .endSession => true
  | .unrec tag => isUnrecTag tag

/-- The operation of a frame. -/
def Frame.instr : Frame → Instr
  | .dbg _ => .dbg
  | .trc _ => .trc
  | .endSession => .endSession
  | .unrec tag => .unrec tag

/-- The bytes of a 16-bit number, low byte first: `LEN n` (R45). -/
def lenBytes (n : Nat) : List Byte := [loByte (BitVec.ofNat 16 n), hiByte (BitVec.ofNat 16 n)]

/-- The bytes of a frame after its tag (R40). -/
def Frame.body : Frame → List Byte
  | .dbg payload => payload
  | .trc buffer => lenBytes buffer.length ++ buffer
  | .endSession => []
  | .unrec _ => []

/-- The bytes of a frame on the wire (R38, R40). -/
def Frame.bytes (f : Frame) : List Byte := encode f.instr ++ f.body

/-- The number of bytes of a frame (R40). -/
def Frame.length : Frame → Nat
  | .dbg _ => 544
  | .trc buffer => 4 + buffer.length
  | .endSession => 2
  | .unrec _ => 2

/-- What decoding a frame gives: the frame and the bytes after it, or that bytes are missing. -/
inductive FrameDecoded where
  | frame (f : Frame) (rest : List Byte)
  | short
deriving DecidableEq, Repr

/-- The next `n` bytes as a frame's body, if there are so many. -/
def takeBody (mk : List Byte → Frame) (n : Nat) (bytes : List Byte) : FrameDecoded :=
  if n ≤ bytes.length then .frame (mk (bytes.take n)) (bytes.drop n) else .short

/-- Decoding a whole frame: its length follows from its tag, and for TRC from the length field (R41). -/
def decodeFrame (bytes : List Byte) : FrameDecoded :=
  match decode bytes with
  | .reject _ => .short
  | .instr .dbg rest => takeBody .dbg Config.dbgPayloadLen rest
  | .instr .trc rest =>
    match rest with
    | b0 :: b1 :: rest => takeBody .trc (halfOfBytes b0 b1).toNat rest
    | _ => .short
  | .instr .endSession rest => .frame .endSession rest
  | .instr (.unrec tag) rest => .frame (.unrec tag) rest

/-! ## What a frame means (R42, R43, R71), read from its bytes

A specification on byte lists; the machine reads the same fields from its frame buffer. -/

/-- The little-endian value of a list of bytes (R26). -/
def leNat : List Byte → Nat
  | [] => 0
  | b :: bs => b.toNat + 256 * leNat bs

/-- The `n` bytes from offset `off` on. -/
def fieldBytes (bs : List Byte) (off n : Nat) : List Byte := (bs.drop off).take n

/-- The DebugMessage of a payload (R42, R72): the first `min(msgLen, 512)` bytes of the text area. -/
def debugEventOf (payload : List Byte) : Event :=
  .debugMessage (fieldBytes payload 30 (min (leNat (fieldBytes payload 6 8)) 512)) (decide (512 < leNat (fieldBytes payload 6 8)))

/-- The fields of a trace record whose header announces `dl` data bytes and the direction flag `dir` (R43, R51 to R53). -/
def traceFieldsOf (buffer : List Byte) (dl : Nat) (dir : Bool) : TraceEvent :=
  let data := fieldBytes buffer 8 dl
  let parity := fieldBytes buffer (8 + dl) ((dl + 7) / 8)
  let bits := (List.range dl).map fun i => (parity.getD (i / 8) 0).getLsbD (7 - i % 8)
  { timestamp := BitVec.ofNat 32 (leNat (fieldBytes buffer 0 4))
    duration := BitVec.ofNat 16 (leNat (fieldBytes buffer 4 2))
    direction := if dir then .tagToReader else .readerToTag
    dataLen := BitVec.ofNat 16 dl
    data := data
    parity := parity
    parOk := List.zipWith pchk data bits
    pbit := bits }

/-- The TraceRecordEvent of a trace buffer, none when the record is truncated (R50, R55). -/
def traceEventOf (buffer : List Byte) : Option Event :=
  let raw := leNat (fieldBytes buffer 6 2)
  let dl := raw % 32768
  if buffer.length < 8 then none
  else if buffer.length < 8 + dl + (dl + 7) / 8 then none
  else some (.traceRecord (traceFieldsOf buffer dl (decide (32768 ≤ raw))))

/-- The event of a frame (R71): none for a truncated trace record. -/
def Frame.event : Frame → Option Event
  | .dbg payload => some (debugEventOf payload)
  | .trc buffer => traceEventOf buffer
  | .endSession => some .sessionEnded
  | .unrec tag => some (.unrecognizedTag tag)

/-! ## Stream notation (R45) -/

/-- One item of an input stream (R45). -/
inductive StreamItem where
  /-- One raw byte. -/
  | byte (b : Byte)
  /-- `TIMEOUT`. -/
  | timeout
  /-- `CLOSED`. -/
  | closed
deriving DecidableEq, Repr

/-- `BYTES hh hh ...`. -/
def streamBytes (bs : List Byte) : List StreamItem := bs.map .byte

/-- `TAG 0xHHHH`. -/
def streamTag (t : Half) : List StreamItem := streamBytes [loByte t, hiByte t]

/-- `LEN n`. -/
def streamLen (n : Nat) : List StreamItem := streamBytes (lenBytes n)

/-- The 542-byte payload of `DBG len=n text="s"`: 6 zero bytes, LE64(n), 16 zero bytes, the text, zero bytes up to 542. -/
def debugPayload (n : Nat) (text : List Byte) : List Byte :=
  (List.replicate 6 0 ++ bytesOfNat 8 n ++ List.replicate 16 0 ++ text ++ List.replicate Config.dbgPayloadLen 0).take Config.dbgPayloadLen

/-- `DBG len=n text="s"`. -/
def streamDbg (n : Nat) (text : List Byte) : List StreamItem := streamTag Config.tagDebug ++ streamBytes (debugPayload n text)

/-- The content of a `TRC` macro: LE32(t), LE16(d), LE16(f * 0x8000 + |data|), the data, the parity bytes. -/
def traceContent (ts dur : Nat) (dir : Direction) (data par : List Byte) : List Byte :=
  bytesOfNat 4 ts ++ bytesOfNat 2 dur
    ++ bytesOfNat 2 ((match dir with | .tagToReader => 0x8000 | .readerToTag => 0) + data.length) ++ data ++ par

/-- The buffer of a `TRC` macro: the content, or exactly `L` bytes of it, cut or padded with zero bytes. -/
def traceBuffer (content : List Byte) : Option Nat → List Byte
  | none => content
  | some n => (content ++ List.replicate n 0).take n

/-- `TRC ts=t dur=d dir=... data=[..] par=[..] [L=n]`. -/
def streamTrc (ts dur : Nat) (dir : Direction) (data par : List Byte) (len : Option Nat) : List StreamItem :=
  streamTag Config.tagTrace ++ streamLen (traceBuffer (traceContent ts dur dir data par) len).length
    ++ streamBytes (traceBuffer (traceContent ts dur dir data par) len)

/-- `END`. -/
def streamEnd : List StreamItem := streamTag Config.tagEnd

/-! ## Input cycles -/

/-- A cycle in which the consumer takes the event and every other pin is 0. -/
def readyCycle : Inputs := { Inputs.quiet with evReady := true }

/-- A cycle in which the read's timeout expires and every other pin is 0. -/
def timeoutCycle : Inputs := { Inputs.quiet with inTimeout := true }

/-- A cycle in which the transport is closed and every other pin is 0. -/
def closedCycle : Inputs := { Inputs.quiet with inClosed := true }

/-- The cycles that present a stream to a read, one item a cycle (R45, R60). `CLOSED` holds `in_closed` from that point on; at the end of the stream it
takes a cycle of its own. The first argument says whether the transport is closed already. -/
def streamCycles : Bool → List StreamItem → List Inputs
  | _, [] => []
  | closed, .byte b :: rest => { byteCycle b with inClosed := closed } :: streamCycles closed rest
  | closed, .timeout :: rest => { timeoutCycle with inClosed := closed } :: streamCycles closed rest
  | _, [.closed] => [closedCycle]
  | _, .closed :: item :: rest => streamCycles true (item :: rest)

/-- The cycle brings the transport nothing that ends a read: no reset, no closure, no timeout. It may offer a byte, or wait. -/
def waitsOrOffers (p : Inputs) : Bool := !p.rst && !p.inClosed && !p.inTimeout

/-- The byte a cycle offers, if any. -/
def offered (p : Inputs) : List Byte := if p.inValid then [p.inData] else []

/-- The cycles of a frame whose bytes are offered without a wait and whose event is taken at once (R97): its bytes, the check cycle of a trace frame, the
handshake. -/
def Frame.cycles : Frame → List Inputs
  | .dbg payload => (Frame.dbg payload).bytes.map byteCycle ++ [readyCycle]
  | .trc buffer => (Frame.trc buffer).bytes.map byteCycle ++ [Inputs.quiet, readyCycle]
  | .endSession => Frame.endSession.bytes.map byteCycle ++ [readyCycle]
  | .unrec tag => (Frame.unrec tag).bytes.map byteCycle ++ [readyCycle]

/-! ## Runs (R69) -/

/-- `n` steps from `s`, stopping at a fault or a refusal. -/
def runSteps : Nat → State → Result
  | 0, s => .next s
  | n + 1, s => andThen (step s) (runSteps n)

end Sys2Proof.Machine
end

