-- ==== Sys2Proof/Safety.lean ====
section
/-! DEFINITION. What a safe state of the FTD is: the invariant every step keeps, the interface duties of the environment (`70_reset_and_hazards.md` R94, R95) as
predicates over pins, and when two states differ only in frame-buffer bytes that no output can show (`20_memory.md` R32). -/

namespace Sys2Proof.Safety

open Sys2Proof.Machine

/-- The tag belongs to the frame in progress (R31, R64): a debug tag in `S_DBG`, a trace tag in the trace states, and in `S_EMIT` the tag of the pending
event, whose record has passed the check (R75). -/
def frameOk (s : State) : Prop :=
  match s.st with
  | .dbg => s.tag = Config.tagDebug
  | .tlen => s.tag = Config.tagTrace
  | .tbuf => s.tag = Config.tagTrace
  | .dec => s.tag = Config.tagTrace
  | .emit =>
    match s.evk with
    | .debug => s.tag = Config.tagDebug
    | .trace => s.tag = Config.tagTrace ∧ trdCheck s.tlen.toNat s.fb = .ok
    | .ended => s.tag = Config.tagEnd
    | .unrec => isUnrecTag s.tag = true
  | .idle => s.tag = 0 ∧ s.tlen = 0 ∧ s.evk = .debug
  | .tag => True
  | .drain => True
  | .term => True

/-- The recorded cause tells what ended the session (R78). -/
def causeOk (s : State) : Prop :=
  match s.cause with
  | .noCause => s.st ≠ .drain ∧ s.st ≠ .term
  | .sessionEnded => (s.st = .drain ∨ s.st = .term) ∧ s.tag = Config.tagEnd ∧ s.evk = .ended
  | .unrecognizedTag => (s.st = .drain ∨ s.st = .term) ∧ isUnrecTag s.tag = true ∧ s.evk = .unrec
  | .truncatedRecord =>
    (s.st = .drain ∨ s.st = .term) ∧ s.tag = Config.tagTrace ∧ trdCheck s.tlen.toNat s.fb = .truncatedRecord
  | .truncatedFrame => s.st = .drain ∨ s.st = .term
  | .transportClosed => s.st = .drain ∨ s.st = .term

/-- The invariant of the FTD. Every state a run reaches from reset meets it. -/
structure Inv (s : State) : Prop where
  /-- The frame buffer keeps its canonical form, every offset below FB_SIZE (R23). -/
  fbCanonical : s.fb.wf = true
  /-- `dcnt` stays in 0..DRAIN_MAX (R17). -/
  drainBound : s.dcnt ≤ s.drainMax
  /-- `dcnt` is 0 before the drain (R17). -/
  drainStart : s.st ≠ .drain → s.st ≠ .term → s.dcnt = 0
  /-- `cnt` is at most `n(st) - 1` in a read state (R12). -/
  countBound : s.st.isRead = true → s.cnt.toNat < readLen s
  /-- `cnt` is 0 when no read is in progress (R64, R79). -/
  countZero : s.st.isRead = false → s.cnt = 0
  /-- `rdq` is 1 only in the first cycle of a read (R18, R57). -/
  readStart : s.rdq = true → s.st.isRead = true ∧ s.cnt = 0
  /-- The tag, the pending event and the record check agree with the state. -/
  frame : frameOk s
  /-- The cause agrees with the state. -/
  cause : causeOk s

/-- The registers of the two states are equal, and their parameter, pins and observation too: they may differ in the frame buffer only. -/
def sameButFb (s t : State) : Prop := { s with fb := [] } = { t with fb := [] }

/-- The first offset of the frame buffer that the current frame has not written (R31). -/
def written (s : State) : Nat :=
  match s.st with
  | .dbg => s.cnt.toNat
  | .tbuf => s.cnt.toNat
  | .dec => s.tlen.toNat
  | .emit =>
    match s.evk with
    | .debug => Config.dbgPayloadLen
    | .trace => s.tlen.toNat
    | .ended => 0
    | .unrec => 0
  | .idle => 0
  | .tag => 0
  | .tlen => 0
  | .drain => 0
  | .term => 0

/-- The two states differ at most in frame-buffer bytes that the current frame has not written (R32). -/
def sameVisible (s t : State) : Prop := sameButFb s t ∧ ∀ off, off < written s → s.fb.read off = t.fb.read off

/-- The state with other pins at the next edge. -/
def withPins (p : Inputs) (s : State) : State := { s with inputs := p :: s.inputs.tail }

/-- No reset at the next `n` edges. -/
def noResetFor (n : Nat) (s : State) : Prop := ∀ p ∈ s.inputs.take n, p.rst = false

/-- The rules that begin a read at this edge (R57): `start` in `S_IDLE` (R58), an idle timeout (R62), a completed tag of a class with more bytes, a
completed non-zero length (R64), and the handshake of a debug or trace event (R66). -/
def beginsRead (s : State) : Prop :=
  match s.st with
  | .idle => s.pins.start = true
  | .tag =>
    s.pins.inClosed = false
      ∧ ((s.pins.inValid = false ∧ s.pins.inTimeout = true ∧ s.cnt = 0)
        ∨ (s.pins.inValid = true ∧ s.cnt = 1
          ∧ (setHiByte s.tag s.pins.inData = Config.tagDebug ∨ setHiByte s.tag s.pins.inData = Config.tagTrace)))
  | .tlen => s.pins.inClosed = false ∧ s.pins.inValid = true ∧ s.cnt = 1 ∧ setHiByte s.tlen s.pins.inData ≠ 0
  | .emit => s.pins.evReady = true ∧ (s.evk = .debug ∨ s.evk = .trace)
  | .dbg => False
  | .tbuf => False
  | .dec => False
  | .drain => False
  | .term => False

/-! ## Duties of the environment (log 11) -/

/-- The pins of the edge after the next one. -/
def laterPins (s : State) : Inputs := (endCycle s).pins

/-- R94 (a): a byte offered but not taken is offered again, unchanged. DESIGN CHOICE (log 11): at the very next edge, where R94 names no time. -/
def keepsOffer (s : State) : Prop :=
  s.pins.inValid = true → inReady s = false → (laterPins s).inValid = true ∧ (laterPins s).inData = s.pins.inData

/-- R94 (c): a closed transport stays closed until reset. DEDUCED (log 11): the hold ends with the edge that samples `rst = 1`; what `in_closed` is at the edge
after it is left open. -/
def holdsClosed (s : State) : Prop := s.pins.rst = false → s.pins.inClosed = true → (laterPins s).inClosed = true

/-- R94 (b), the part that names no time. DEDUCED (log 11): a timeout pulses only in a read state, because it is the timeout of a read not yet complete. -/
def timesOutReads (s : State) : Prop := s.pins.inTimeout = true → s.st.isRead = true

/-- R95: the consumer raises `ev_ready` eventually. DESIGN CHOICE (log 11): within the next `n` edges, for the `n` of the claim. -/
def readyWithin (n : Nat) (s : State) : Prop := ∃ p ∈ s.inputs.take n, p.evReady = true

end Sys2Proof.Safety
end

