-- ==== Sys2Proof/Certificates/Slice0/Obligations.lean ====
section
/-! DEFINITION. The statements for the provers, in the order of the spec's files. Each docstring names the rule of `spec/` it formalises. -/

open Sys2Proof Sys2Proof.Machine Sys2Proof.Safety

/-! ## State and reset (`10_state.md`, `70_reset_and_hazards.md`) -/

/-- R89, R11 to R18: after reset, whatever DRAIN_MAX and the environment are, `st` is `S_IDLE` and every register is 0. The model's choices, no rule of the
spec: FB lists nothing (log 3), nothing is observed (log 7), and `State.reset` is this state for the DRAIN_MAX of `Config` (log 4) with no pins listed (log 1). -/
def Obligations.ResetLeavesEveryRegisterAtItsResetValue : Prop :=
  ∀ (drainMax : Nat) (inputs : List Inputs),
    (State.resetWith drainMax inputs).st = .idle
      ∧ (State.resetWith drainMax inputs).cnt = 0
      ∧ (State.resetWith drainMax inputs).tag = 0x0000
      ∧ (State.resetWith drainMax inputs).tlen = 0
      ∧ (State.resetWith drainMax inputs).evk = .debug
      ∧ (State.resetWith drainMax inputs).cause = .noCause
      ∧ (State.resetWith drainMax inputs).dcnt = 0
      ∧ (State.resetWith drainMax inputs).rdq = false
      ∧ (State.resetWith drainMax inputs).fb = []
      ∧ (State.resetWith drainMax inputs).events = []
      ∧ (State.resetWith drainMax inputs).taken = 0
      ∧ (State.resetWith drainMax inputs).drainMax = drainMax
      ∧ (State.resetWith drainMax inputs).inputs = inputs
      ∧ State.reset = State.resetWith Config.drainMaxAtReset []

/-- R89: a step with `rst = 1`, from any state, sets every register to its reset value, changes no byte of FB and hands over no event; after it `in_ready`,
`rd_start`, `ev_valid`, `done`, `term_cause`, `status` and every other output are 0. The model's choice (log 7): no byte is counted as taken in it, not only
none for a frame, also where `in_valid` and `in_ready` are 1. -/
def Obligations.ResetCycleResetsRegistersAndKeepsFrameBuffer : Prop :=
  ∀ s : State, s.pins.rst = true →
    ∃ t, step s = .next t
      ∧ t = { st := .idle, cnt := 0, tag := 0x0000, tlen := 0, evk := .debug, cause := .noCause, dcnt := 0, rdq := false, fb := s.fb,
              drainMax := s.drainMax, inputs := s.inputs.tail, events := s.events, taken := s.taken }
      ∧ ∀ plIdx, outputs t plIdx = { inReady := false, rdStart := false, rdLen := 0, evValid := false, port := EventPort.zero, isDone := false,
                                     termCause := 0, status := 0x00 }

/-- R10: the outputs for a `pl_idx` are those of the registers, FB and DRAIN_MAX, whatever the pins and the observation are; and every output but the four `pl_*` is
the same for every `pl_idx`. -/
def Obligations.OutputsIgnoreEveryInputButPayloadIndex : Prop :=
  ∀ (s : State) (inputs : List Inputs) (events : List Event) (taken : Nat) (i j : Half),
    outputs { s with inputs := inputs, events := events, taken := taken } i = outputs s i
      ∧ { outputs s i with port := { (outputs s i).port with plByte := 0, plParbyte := 0, plPbit := false, plPok := false } }
        = { outputs s j with port := { (outputs s j).port with plByte := 0, plParbyte := 0, plPbit := false, plPok := false } }

/-- R19 to R22: `in_ready` is 1 in the read states and in `S_DRAIN` below DRAIN_MAX only; `rd_start = rdq`; `rd_len` is the read's length (R59); `done` is 1
exactly in `S_TERM`; `term_cause = cause`, which is `C_NONE` until the session ends; `status` packs cause, done and state, and is 0 after reset. The codes of the
states (R11) and of the causes (R16, R78) are written out. -/
def Obligations.ControlOutputsFollowTheRegisters : Prop :=
  ∀ (s : State) (plIdx : Half),
    ((outputs s plIdx).inReady = true
        ↔ s.st = .tag ∨ s.st = .dbg ∨ s.st = .tlen ∨ s.st = .tbuf ∨ (s.st = .drain ∧ s.dcnt < s.drainMax))
      ∧ (outputs s plIdx).rdStart = s.rdq
      ∧ (outputs s plIdx).rdLen
          = (if s.st = .tag then 2 else if s.st = .dbg then 542 else if s.st = .tlen then 2 else if s.st = .tbuf then s.tlen else 0)
      ∧ ((outputs s plIdx).isDone = true ↔ s.st = .term)
      ∧ (outputs s plIdx).termCause
          = (match s.cause with
             | .noCause => 0
             | .sessionEnded => 1
             | .unrecognizedTag => 2
             | .truncatedFrame => 3
             | .truncatedRecord => 4
             | .transportClosed => 5)
      ∧ (Inv s → s.st ≠ .drain → s.st ≠ .term → (outputs s plIdx).termCause = 0)
      ∧ (outputs s plIdx).status.extractLsb' 0 4
          = (match s.st with
             | .idle => 0
             | .tag => 1
             | .dbg => 2
             | .tlen => 3
             | .tbuf => 4
             | .dec => 5
             | .emit => 6
             | .drain => 7
             | .term => 8)
      ∧ (outputs s plIdx).status.getLsbD 4 = (outputs s plIdx).isDone
      ∧ (outputs s plIdx).status.extractLsb' 5 3 = (outputs s plIdx).termCause
      ∧ (outputs State.reset plIdx).status = 0x00

/-- R17: in a state that meets the invariant `dcnt` fits the width R17 gives it. -/
def Obligations.DrainCountFitsItsWidth : Prop :=
  ∀ s : State, Inv s → s.dcnt < 2 ^ Config.dcntWidth s.drainMax

/-- R18: `rdq` is 1 after a step exactly when a rule began a read in it (R57, R58, R62, R64, R66); a reset clears it. -/
def Obligations.ReadStartFlagLastsOneCycle : Prop :=
  ∀ s t : State, step s = .next t → (t.rdq = true ↔ s.pins.rst = false ∧ beginsRead s)

/-- R16, R81: `cause` is written once: no step without a reset changes a recorded cause, and the step that records one goes to `S_DRAIN`. -/
def Obligations.CauseIsWrittenOnceOnTheWayToTheDrain : Prop :=
  ∀ s t : State, Inv s → s.pins.rst = false → step s = .next t →
    (s.cause ≠ .noCause → t.cause = s.cause) ∧ (t.cause ≠ s.cause → s.st ≠ .drain ∧ s.st ≠ .term ∧ t.st = .drain)

/-! ## Memory (`20_memory.md`) -/

/-- R24, R23: a byte written at an offset below 65535 reads back, every other byte reads as before, and nothing but FB changes; an offset that does not exist is
the model's fault (log 6). -/
def Obligations.MemWriteSetsOneByteOfTheFrameBuffer : Prop :=
  ∀ (s : State) (off : Nat) (v : Byte), s.fb.wf = true →
    (off < 65535 → ∃ t, memWrite off v s = .next t ∧ { t with fb := s.fb } = s ∧ t.fb.read off = v ∧ ∀ x, x ≠ off → t.fb.read x = s.fb.read x)
      ∧ (65535 ≤ off → memWrite off v s = .fault (.frameBufferOffset off))

/-- R25, R26: `MemRead(off, n)` is the sum of `FB[off + k] * 256^k`. -/
def Obligations.MemReadIsLittleEndian : Prop :=
  ∀ (m : Memory) (off n : Nat), memRead m off n = ∑ k ∈ Finset.range n, (m.read (off + k)).toNat * 256 ^ k

/-- R27: mixed-width views of the record header: `MemRead(4, 4)` and `MemRead(0, 8)` are the fields side by side, and the direction flag is bit 7 of `FB[7]`. -/
def Obligations.MixedWidthViewsSeeTheSameBytes : Prop :=
  ∀ m : Memory,
    memRead m 4 4 = (duration m).toNat + 65536 * (rawDataLen m).toNat
      ∧ memRead m 0 8 = (timestamp m).toNat + 4294967296 * ((duration m).toNat + 65536 * (rawDataLen m).toNat)
      ∧ dirFlag m = (m.read 7).getLsbD 7
      ∧ (rawDataLen m).extractLsb' 8 8 = m.read 7

/-- R23, R24, R31: a step changes at most one byte of FB, only in `S_DBG` and `S_TBUF`, at offset `cnt`, to the byte taken in that cycle. -/
def Obligations.FrameBufferIsWrittenOnlyByFrameReads : Prop :=
  ∀ (s t : State) (off : Nat), s.fb.wf = true → step s = .next t → t.fb.read off ≠ s.fb.read off →
    (s.st = .dbg ∨ s.st = .tbuf) ∧ off = s.cnt.toNat ∧ s.pins.inValid = true ∧ t.fb.read off = s.pins.inData

/-- R32: states that differ only in frame-buffer bytes the current frame has not written have the same outputs, and step to states that differ only so: the
unspecified contents of FB are hidden in every run. -/
def Obligations.UnwrittenFrameBufferBytesAreHidden : Prop :=
  ∀ s t : State, Inv s → t.fb.wf = true → sameVisible s t →
    (∀ plIdx, outputs s plIdx = outputs t plIdx) ∧ ∀ s', step s = .next s' → ∃ t', step t = .next t' ∧ sameVisible s' t'

/-! ## Encoding (`30_encoding.md`) -/

/-- R38: the tag is `b0 + 256 * b1`, and the bytes after the two tag bytes are left. -/
def Obligations.TagIsTwoBytesLittleEndian : Prop :=
  ∀ (b0 b1 : Byte) (rest : List Byte),
    decode (b0 :: b1 :: rest) = .instr (tagClass (BitVec.ofNat 16 (b0.toNat + 256 * b1.toNat))) rest
      ∧ decode [] = .reject .noTag ∧ decode [b0] = .reject .halfTag

/-- R39: the class of a tag, by exact equality of all 16 bits; UNREC is the complement of the other three. -/
def Obligations.TagClassIsByExactEquality : Prop :=
  tagClass 0x0100 = .dbg ∧ tagClass 0x0318 = .trc ∧ tagClass 0xDEAD = .endSession
    ∧ ∀ tag : Half, tag ≠ 0x0100 → tag ≠ 0x0318 → tag ≠ 0xDEAD → tagClass tag = .unrec tag

/-- R38, R39 on words written out from the table's wire bytes, and the byte-swapped spellings, which are unrecognized (R77). -/
def Obligations.WireBytesDecodeToTheirOperations : Prop :=
  decode [0x00, 0x01] = .instr .dbg [] ∧ decode [0x18, 0x03] = .instr .trc [] ∧ decode [0xAD, 0xDE] = .instr .endSession []
    ∧ decode [0xFF, 0xFF] = .instr (.unrec 0xFFFF) [] ∧ decode [0x01, 0x00] = .instr (.unrec 0x0001) []
    ∧ decode [0x03, 0x18] = .instr (.unrec 0x1803) [] ∧ decode [0xDE, 0xAD] = .instr (.unrec 0xADDE) []

/-- R38, R39: decoding the bytes of a well-formed operation gives it back, with every operand. -/
def Obligations.DecodeOfEncodeIsTheOperation : Prop :=
  ∀ (i : Instr) (rest : List Byte), i.wf = true → decode (encode i ++ rest) = .instr i rest

/-- R38, R39: every two bytes decode to a well-formed operation whose encoding they are. -/
def Obligations.EncodeOfDecodeIsTheBytes : Prop :=
  ∀ (b0 b1 : Byte) (rest : List Byte), ∃ i, decode (b0 :: b1 :: rest) = .instr i rest ∧ i.wf = true ∧ encode i = [b0, b1]

/-- R40, R41: decoding a whole frame's bytes gives the frame and the bytes after it; a frame has 544, 4 + L, 2 or 2 bytes. -/
def Obligations.FrameBytesDecodeToTheFrame : Prop :=
  ∀ (f : Frame) (rest : List Byte), f.wf = true → decodeFrame (f.bytes ++ rest) = .frame f rest ∧ f.bytes.length = f.length

/-! ## PCHK (`40_parity_checker.md`) -/

/-- R46: the verdict is the XOR of the byte's bits and the parity bit, it is 1 exactly for an odd total, and one flipped bit of the byte or of the parity bit
flips it. -/
def Obligations.ParityVerdictIsOddParity : Prop :=
  ∀ (b : Byte) (p : Bool),
    (pchk b p = true ↔ (popcount b + p.toNat) % 2 = 1)
      ∧ pchk b p = (b.getLsbD 7 ^^ b.getLsbD 6 ^^ b.getLsbD 5 ^^ b.getLsbD 4 ^^ b.getLsbD 3 ^^ b.getLsbD 2 ^^ b.getLsbD 1 ^^ b.getLsbD 0 ^^ p)
      ∧ pchk b (!p) = !pchk b p
      ∧ ∀ k : Fin 8, pchk (b ^^^ BitVec.twoPow 8 k.val) p = !pchk b p

/-! ## TRD (`41_trace_record_decoder.md`) -/

/-- R48: the record's fields from the bytes of FB, and their ranges. -/
def Obligations.RecordFieldsAreExtractedFromTheHeader : Prop :=
  ∀ m : Memory,
    (timestamp m).toNat = (m.read 0).toNat + 256 * (m.read 1).toNat + 65536 * (m.read 2).toNat + 16777216 * (m.read 3).toNat
      ∧ (duration m).toNat = (m.read 4).toNat + 256 * (m.read 5).toNat
      ∧ (rawDataLen m).toNat = (m.read 6).toNat + 256 * (m.read 7).toNat
      ∧ dirFlag m = (rawDataLen m).getLsbD 15
      ∧ dirFlag m = (m.read 7).getLsbD 7
      ∧ dataLen m = (rawDataLen m).toNat % 32768
      ∧ dataLen m = (rawDataLen m &&& 0x7FFF).toNat
      ∧ plen m = (dataLen m + 7) / 8
      ∧ need m = 8 + dataLen m + plen m
      ∧ plen m ≤ 4096 ∧ 8 ≤ need m ∧ need m ≤ 36871

/-- R50: the check passes exactly when `L >= 8` and `L >= need`; otherwise it is TruncatedRecord. -/
def Obligations.RecordCheckComparesLengthWithNeed : Prop :=
  ∀ (len : Nat) (m : Memory),
    (trdCheck len m = .ok ↔ 8 ≤ len ∧ 8 + dataLen m + plen m ≤ len)
      ∧ (trdCheck len m = .truncatedRecord ↔ len < 8 ∨ (8 ≤ len ∧ len < 8 + dataLen m + plen m))

/-- R51: when the check passes, no field of the record depends on a byte at `need` or above. -/
def Obligations.RecordIgnoresBytesFromNeedOn : Prop :=
  ∀ (len : Nat) (m m' : Memory), trdCheck len m = .ok → (∀ off, off < need m → m.read off = m'.read off) →
    decodeTraceRecord len m' = decodeTraceRecord len m ∧ decodeTraceRecord len m ≠ none

/-- R51, R52: data and parity slices, and the parity bit of data byte i, most significant bit first; the bits at indices 0, 7 and 8. -/
def Obligations.ParityBitsAreTakenMostSignificantFirst : Prop :=
  ∀ m : Memory,
    (∀ i, dataByte m i = m.read (8 + i))
      ∧ (∀ j, parityByte m j = m.read (8 + dataLen m + j))
      ∧ (∀ i, pbit m i = (parityByte m (i / 8)).getLsbD (7 - i % 8))
      ∧ pbit m 0 = (parityByte m 0).getLsbD 7
      ∧ pbit m 7 = (parityByte m 0).getLsbD 0
      ∧ pbit m 8 = (parityByte m 1).getLsbD 7
      ∧ ∀ i, parOk m i = pchk (dataByte m i) (pbit m i)

/-! ## The cycle step (`42_frame_dispatcher.md`) -/

/-- R64, R38, R39: when the byte offered completes the tag read and the tag's two bytes decode to an operation, the step runs `exec` of that operation on the
state with the tag stored and `cnt` 0, between what every cycle does (`rdq <- 0` and the observation before, the next pins after). -/
def Obligations.StepRunsTheDecodedTag : Prop :=
  ∀ (s : State) (i : Instr),
    s.st = .tag → s.cnt = 1 → s.pins.rst = false → s.pins.inClosed = false → s.pins.inValid = true →
    decode [loByte s.tag, s.pins.inData] = .instr i [] →
    i.wf = true
      ∧ step s = andThen (exec i { beginCycle s with tag := halfOfBytes (loByte s.tag) s.pins.inData, cnt := 0 }) fun t => .next (endCycle t)

/-- R56: in the later states of a frame the step runs a cycle of the frame's operation: DBG in `S_DBG`, TRC in `S_TLEN`, `S_TBUF` and `S_DEC`, and in `S_EMIT` the
operation of the pending event. -/
def Obligations.StepContinuesTheFrameInProgress : Prop :=
  ∀ (s : State) (i : Instr), s.pins.rst = false →
    ((s.st = .dbg ∧ i = .dbg) ∨ ((s.st = .tlen ∨ s.st = .tbuf ∨ s.st = .dec) ∧ i = .trc)
      ∨ (s.st = .emit ∧ ((s.evk = .debug ∧ i = .dbg) ∨ (s.evk = .trace ∧ i = .trc) ∨ (s.evk = .ended ∧ i = .endSession)
        ∨ (s.evk = .unrec ∧ i = .unrec s.tag)))) →
    step s = andThen (exec i (beginCycle s)) fun t => .next (endCycle t)

/-- R69, R8: what every step without a reset does beside its case: the next pins are up; the observation gains the event of an event handshake and the byte of a
byte handshake; DRAIN_MAX is kept. -/
def Obligations.EveryCycleRecordsItsHandshakes : Prop :=
  ∀ s t : State, s.pins.rst = false → step s = .next t →
    t.inputs = s.inputs.tail
      ∧ t.events = s.events ++ (if s.st = .emit ∧ s.pins.evReady = true then [presentedEvent s] else [])
      ∧ t.taken = s.taken + (if s.pins.inValid = true ∧ inReady s = true then 1 else 0)
      ∧ t.drainMax = s.drainMax

/-- R64, R57: what a completed tag does, by class: DBG and TRC begin their next read, END and UNREC present their event; each answers a next state. -/
def Obligations.CompletedTagBeginsItsFrame : Prop :=
  ∀ (s : State) (tag : Half), s.st = .tag →
    exec .dbg s = .next { s with st := .dbg, cnt := 0, rdq := true }
      ∧ exec .trc s = .next { s with st := .tlen, cnt := 0, rdq := true }
      ∧ exec .endSession s = .next { s with evk := .ended, st := .emit }
      ∧ exec (.unrec tag) s = .next { s with evk := .unrec, st := .emit }

/-- R58: in `S_IDLE`, `start` begins the tag read; without it nothing changes; no byte is taken, and timeouts and closure are ignored. `start` is ignored in every
other state. -/
def Obligations.StartBeginsTheTagRead : Prop :=
  ∀ s : State,
    (s.st = .idle → s.pins.rst = false →
      step s = .next
        (if s.pins.start = true then { s with st := .tag, cnt := 0, rdq := true, inputs := s.inputs.tail }
         else { s with rdq := false, inputs := s.inputs.tail }))
      ∧ (s.st ≠ .idle → ∀ b, step (withPins { s.pins with start := b } s) = step (withPins s.pins s))

/-- R61: the first tag byte is the low byte of `tag`, and it is counted. -/
def Obligations.FirstTagByteIsTheLowByte : Prop :=
  ∀ s : State, s.st = .tag → s.cnt = 0 → s.pins.rst = false → s.pins.inClosed = false → s.pins.inValid = true → s.pins.inTimeout = false →
    step s = .next { s with tag := halfOfBytes s.pins.inData (hiByte s.tag), cnt := 1, rdq := false, inputs := s.inputs.tail, taken := s.taken + 1 }

/-- R60 to R64: a read cycle takes the cycle's items in order and stops at the first that ends the read. -/
def Obligations.ReadCycleTakesItsItemsInOrder : Prop :=
  ∀ (complete : State → Result) (s : State), readCycle complete s = takeItems complete (inputItems s.pins) s.cnt.toNat s

/-- R63, R79, R60: closure in a read state, whatever else is presented, raises TransportClosed; a byte of the same cycle is taken and discarded. -/
def Obligations.ClosureInAReadStateEndsTheSession : Prop :=
  ∀ s : State, s.st.isRead = true → s.pins.rst = false → s.pins.inClosed = true →
    step s = .next { s with cause := .transportClosed, st := .drain, dcnt := 0, cnt := 0, rdq := false, inputs := s.inputs.tail,
                            taken := s.taken + (if s.pins.inValid = true then 1 else 0) }

/-- R62: a timeout that comes with no byte is an idle retry when no byte of the tag has come, which changes nothing but `cnt` and `rdq`, and TruncatedFrame
otherwise (R79); after a byte of the same cycle that does not complete the read, it is TruncatedFrame, and the byte stays where Store put it (R61). The model's
choice (log 10): a trace byte at offset 36871 or above is stored too, where R5 lets an implementation store none. -/
def Obligations.TimeoutEndsTheReadShort : Prop :=
  ∀ s : State, Inv s → s.st.isRead = true → s.pins.rst = false → s.pins.inClosed = false → s.pins.inTimeout = true →
    (s.pins.inValid = false →
      step s = .next
        (if s.st = .tag ∧ s.cnt = 0 then { s with cnt := 0, rdq := true, inputs := s.inputs.tail }
         else { s with cause := .truncatedFrame, st := .drain, dcnt := 0, cnt := 0, rdq := false, inputs := s.inputs.tail }))
      ∧ (s.pins.inValid = true → s.cnt.toNat + 1 ≠ readLen s →
        step s = .next
          { s with tag := if s.st = .tag then halfOfBytes s.pins.inData (hiByte s.tag) else s.tag
                   tlen := if s.st = .tlen then halfOfBytes s.pins.inData (hiByte s.tlen) else s.tlen
                   fb := if s.st = .dbg ∨ s.st = .tbuf then s.fb.write s.cnt.toNat s.pins.inData else s.fb
                   cause := .truncatedFrame
                   st := .drain
                   dcnt := 0
                   cnt := 0
                   rdq := false
                   inputs := s.inputs.tail
                   taken := s.taken + 1 })

/-- R60, R82: a byte that completes its read comes before a timeout of the same cycle, which is dropped. -/
def Obligations.ByteThatCompletesDropsTheTimeout : Prop :=
  ∀ s : State, s.st.isRead = true → s.pins.rst = false → s.pins.inClosed = false → s.pins.inValid = true → s.cnt.toNat + 1 = readLen s →
    ∀ b, step (withPins { s.pins with inTimeout := b } s) = step (withPins s.pins s)

/-- R67, for `dcnt` in its range (R17): the drain cycle stops on closure, on a cycle with no byte, or at DRAIN_MAX; otherwise it discards one byte. A byte offered
below DRAIN_MAX is taken, also in a cycle that closure ends. It writes no other register. -/
def Obligations.DrainDiscardsOneByteOrStops : Prop :=
  ∀ s : State, s.st = .drain → s.dcnt ≤ s.drainMax → s.pins.rst = false →
    step s = .next
      (if s.pins.inClosed = true ∨ s.pins.inValid = false ∨ s.dcnt = s.drainMax then
         { s with st := .term, rdq := false, inputs := s.inputs.tail,
                  taken := s.taken + (if s.pins.inValid = true ∧ s.dcnt < s.drainMax then 1 else 0) }
       else { s with dcnt := s.dcnt + 1, rdq := false, inputs := s.inputs.tail, taken := s.taken + 1 })

/-- R67, R70: without a reset the drain is over after at most `DRAIN_MAX - dcnt + 1` cycles; it keeps the cause, the tag, the trace length and FB, hands over no
event and takes at most `DRAIN_MAX - dcnt` bytes. -/
def Obligations.DrainEndsWithinItsBound : Prop :=
  ∀ s : State, s.st = .drain → s.dcnt ≤ s.drainMax → noResetFor (s.drainMax - s.dcnt + 1) s →
    ∃ (n : Nat) (t : State), n ≤ s.drainMax - s.dcnt + 1 ∧ runSteps n s = .next t ∧ t.st = .term ∧ t.cause = s.cause ∧ t.tag = s.tag ∧ t.tlen = s.tlen
      ∧ t.fb = s.fb ∧ t.events = s.events ∧ t.taken ≤ s.taken + (s.drainMax - s.dcnt)

/-- R68: `S_TERM` is absorbing: however many steps are taken without a reset, and whatever else the pins do, nothing changes but the list of pins and `rdq`,
which is 0; `done = 1` and `in_ready = 0` in it, and a reset leaves it. -/
def Obligations.TerminatedStaysTerminated : Prop :=
  ∀ (n : Nat) (s : State), s.st = .term → s.rdq = false →
    (noResetFor n s → runSteps n s = .next { s with inputs := s.inputs.drop n })
      ∧ (∀ plIdx, (outputs s plIdx).isDone = true ∧ (outputs s plIdx).inReady = false)
      ∧ (s.pins.rst = true → ∃ t, step s = .next t ∧ t.st = .idle)

/-- R34 (e), R81, R83: once a session has ended, no run of steps without a reset hands over an event, changes the cause or leaves `S_DRAIN` and `S_TERM`. -/
def Obligations.AfterTheEndNothingIsHandedOver : Prop :=
  ∀ (n : Nat) (s t : State), s.st = .drain ∨ s.st = .term → noResetFor n s → runSteps n s = .next t →
    t.events = s.events ∧ t.cause = s.cause ∧ (t.st = .drain ∨ t.st = .term) ∧ t.fb = s.fb

/-- R58, R60, R65, R66, R67, R68: in each state the step depends on the pins its rule names only; `start` outside `S_IDLE`, `pl_idx` everywhere, and closure and
timeouts outside the states that honour them are ignored. -/
def Obligations.EachStateHonoursOnlyItsPins : Prop :=
  ∀ (s : State) (p q : Inputs), p.rst = q.rst →
    (match s.st with
     | .idle => p.start = q.start
     | .tag => p.inClosed = q.inClosed ∧ p.inValid = q.inValid ∧ p.inData = q.inData ∧ p.inTimeout = q.inTimeout
     | .dbg => p.inClosed = q.inClosed ∧ p.inValid = q.inValid ∧ p.inData = q.inData ∧ p.inTimeout = q.inTimeout
     | .tlen => p.inClosed = q.inClosed ∧ p.inValid = q.inValid ∧ p.inData = q.inData ∧ p.inTimeout = q.inTimeout
     | .tbuf => p.inClosed = q.inClosed ∧ p.inValid = q.inValid ∧ p.inData = q.inData ∧ p.inTimeout = q.inTimeout
     | .dec => True
     | .emit => p.evReady = q.evReady
     | .drain => p.inClosed = q.inClosed ∧ p.inValid = q.inValid
     | .term => True) →
    step (withPins p s) = step (withPins q s)

/-- R88: a read state with nothing presented, and `S_EMIT` with no consumer ready, change no register but `rdq`, which becomes 0. -/
def Obligations.WaitingChangesNoRegister : Prop :=
  ∀ s : State, s.pins.rst = false →
    ((s.st.isRead = true ∧ s.pins.inClosed = false ∧ s.pins.inValid = false ∧ s.pins.inTimeout = false) ∨ (s.st = .emit ∧ s.pins.evReady = false)) →
    step s = .next { s with rdq := false, inputs := s.inputs.tail }

/-! ## The frame operations (`43_frame_operations.md`), one cycle each -/

/-- R61, R62, R64, R72: DBG takes a payload byte: it is stored at `FB[cnt]`; the 542nd completes the read and presents the DebugMessage; before that a timeout of
the same cycle truncates the frame. -/
def Obligations.DebugPayloadByteIsStored : Prop :=
  ∀ s : State, s.st = .dbg → s.cnt.toNat < 542 → s.pins.inClosed = false → s.pins.inValid = true →
    exec .dbg s = .next
      (if s.cnt = 541 then { s with fb := s.fb.write s.cnt.toNat s.pins.inData, cnt := 0, evk := .debug, st := .emit }
       else if s.pins.inTimeout = true then
         { s with fb := s.fb.write s.cnt.toNat s.pins.inData, cause := .truncatedFrame, st := .drain, dcnt := 0, cnt := 0 }
       else { s with fb := s.fb.write s.cnt.toNat s.pins.inData, cnt := s.cnt + 1 })

/-- R61, R64, R74: TRC takes a length byte: the low byte first; the second completes the length, and a length of 0 goes straight to the check. -/
def Obligations.TraceLengthBytesAreLittleEndian : Prop :=
  ∀ s : State, s.st = .tlen → s.pins.inClosed = false → s.pins.inValid = true → s.pins.inTimeout = false →
    (s.cnt = 0 → exec .trc s = .next { s with tlen := halfOfBytes s.pins.inData (hiByte s.tlen), cnt := 1 })
      ∧ (s.cnt = 1 →
          exec .trc s = .next
            (if halfOfBytes (loByte s.tlen) s.pins.inData = 0 then { s with tlen := 0, cnt := 0, st := .dec }
             else { s with tlen := halfOfBytes (loByte s.tlen) s.pins.inData, cnt := 0, st := .tbuf, rdq := true }))

/-- R61, R62, R64, R74: TRC takes a buffer byte: it is stored at `FB[cnt]`; the last of the `tlen` bytes completes the read; before that a timeout of the same cycle
truncates the frame. The model's choice (log 10): the byte is stored also for `cnt` of 36871 and above, where R5 lets an implementation store none. -/
def Obligations.TraceBufferByteIsStored : Prop :=
  ∀ s : State, s.st = .tbuf → s.cnt.toNat < s.tlen.toNat → s.pins.inClosed = false → s.pins.inValid = true →
    exec .trc s = .next
      (if s.cnt + 1 = s.tlen then { s with fb := s.fb.write s.cnt.toNat s.pins.inData, cnt := 0, st := .dec }
       else if s.pins.inTimeout = true then
         { s with fb := s.fb.write s.cnt.toNat s.pins.inData, cause := .truncatedFrame, st := .drain, dcnt := 0, cnt := 0 }
       else { s with fb := s.fb.write s.cnt.toNat s.pins.inData, cnt := s.cnt + 1 })

/-- R65, R50, R79: the check cycle, whatever the pins are, presents the TraceRecordEvent, or raises TruncatedRecord with no event; it takes no byte. -/
def Obligations.RecordCheckPresentsOrTruncates : Prop :=
  ∀ s : State, s.st = .dec →
    exec .trc s = .next
      (if 8 ≤ s.tlen.toNat ∧ 8 + dataLen s.fb + plen s.fb ≤ s.tlen.toNat then { s with evk := .trace, st := .emit }
       else { s with cause := .truncatedRecord, st := .drain, dcnt := 0, cnt := 0 })
      ∧ ∀ plIdx, (outputs s plIdx).inReady = false

/-- R66, R71, R72, R73: the handshake of a DebugMessage: it carries the first `min(msgLen, 512)` bytes of the text area and the clamp flag, and the next tag read
begins. -/
def Obligations.DebugHandshakeHandsOverTheMessage : Prop :=
  ∀ s : State, s.st = .emit → s.evk = .debug → s.pins.evReady = true →
    exec .dbg s = .next { s with st := .tag, cnt := 0, rdq := true }
      ∧ handedOver s
        = [.debugMessage ((List.range (min (memRead s.fb 6 8) 512)).map fun i => s.fb.read (30 + i)) (decide (512 < memRead s.fb 6 8))]

/-- R66, R71, R74, R55: the handshake of a TraceRecordEvent: it carries the decoded record of R55, and the next tag read begins. -/
def Obligations.TraceHandshakeHandsOverTheRecord : Prop :=
  ∀ (s : State) (r : TraceRecord), s.st = .emit → s.evk = .trace → s.pins.evReady = true → decodeTraceRecord s.tlen.toNat s.fb = some r →
    exec .trc s = .next { s with st := .tag, cnt := 0, rdq := true }
      ∧ handedOver s
        = [.traceRecord { timestamp := r.timestamp, duration := r.duration, direction := r.direction, dataLen := r.dataLen.zeroExtend 16, data := r.data,
                          parity := r.parity, parOk := r.parOk, pbit := (List.range r.dataLen.toNat).map (pbit s.fb) }]

/-- R66, R76, R77, R78: the handshakes of SessionEnded and UnrecognizedTag end the session, each with its cause; the second event carries the tag. -/
def Obligations.EndingHandshakesRecordTheirCause : Prop :=
  ∀ s : State, s.st = .emit → s.pins.evReady = true →
    (s.evk = .ended →
        exec .endSession s = .next { s with cause := .sessionEnded, st := .drain, dcnt := 0 } ∧ handedOver s = [.sessionEnded])
      ∧ (s.evk = .unrec →
        exec (.unrec s.tag) s = .next { s with cause := .unrecognizedTag, st := .drain, dcnt := 0 } ∧ handedOver s = [.unrecognizedTag s.tag])

/-- The frame of all four operations, whatever the state: R61, R64, R66, R79, R81, R23. The tag, DRAIN_MAX, the pins and the observation are never written; the trace
length only by TRC in `S_TLEN`; the event kind only on the way to `S_EMIT`; the cause and `dcnt` only on the way to `S_DRAIN`; FB only in `S_DBG` by DBG and in
`S_TBUF` by TRC, at offset `cnt`, by a byte taken. -/
def Obligations.OperationsChangeOnlyTheirRegisters : Prop :=
  ∀ (i : Instr) (s t : State), s.fb.wf = true → exec i s = .next t →
    t.tag = s.tag ∧ t.drainMax = s.drainMax ∧ t.inputs = s.inputs ∧ t.events = s.events ∧ t.taken = s.taken
      ∧ (t.tlen = s.tlen ∨ (i = .trc ∧ s.st = .tlen ∧ s.pins.inValid = true))
      ∧ (t.evk = s.evk ∨ t.st = .emit)
      ∧ (t.cause = s.cause ∧ t.dcnt = s.dcnt ∨ t.st = .drain)
      ∧ ∀ off, t.fb.read off = s.fb.read off
          ∨ ((i = .dbg ∧ s.st = .dbg ∨ i = .trc ∧ s.st = .tbuf) ∧ off = s.cnt.toNat ∧ s.pins.inClosed = false ∧ s.pins.inValid = true
              ∧ t.fb.read off = s.pins.inData)

/-! ## The outputs while an event is presented -/

/-- R73: the event port while a DebugMessage is presented. -/
def Obligations.OutputsWhileADebugMessageIsPresented : Prop :=
  ∀ (s : State) (plIdx : Half), s.st = .emit → s.evk = .debug →
    (outputs s plIdx).evValid = true
      ∧ (outputs s plIdx).port
        = { evKind := 0, evTag := s.tag, evTs := 0, evDur := 0, evDir := false, evLen := BitVec.ofNat 16 (min (memRead s.fb 6 8) 512), evPlen := 0,
            evClamp := decide (512 < memRead s.fb 6 8),
            plByte := if plIdx.toNat < min (memRead s.fb 6 8) 512 then s.fb.read (30 + plIdx.toNat) else 0,
            plParbyte := 0, plPbit := false, plPok := false }
      ∧ (Inv s → s.tag = 0x0100)

/-- R75: the event port while a TraceRecordEvent is presented, and that the record check holds then. -/
def Obligations.OutputsWhileATraceRecordIsPresented : Prop :=
  ∀ (s : State) (plIdx : Half), s.st = .emit → s.evk = .trace →
    (outputs s plIdx).evValid = true
      ∧ (outputs s plIdx).port
        = { evKind := 1, evTag := s.tag, evTs := timestamp s.fb, evDur := duration s.fb, evDir := dirFlag s.fb,
            evLen := (dataLenBits s.fb).zeroExtend 16, evPlen := BitVec.ofNat 16 (plen s.fb), evClamp := false,
            plByte := if plIdx.toNat < dataLen s.fb then dataByte s.fb plIdx.toNat else 0,
            plParbyte := if plIdx.toNat < plen s.fb then parityByte s.fb plIdx.toNat else 0,
            plPbit := if plIdx.toNat < dataLen s.fb then pbit s.fb plIdx.toNat else false,
            plPok := if plIdx.toNat < dataLen s.fb then parOk s.fb plIdx.toNat else false }
      ∧ (Inv s → s.tag = 0x0318 ∧ trdCheck s.tlen.toNat s.fb = .ok)

/-- R76, R77, R66: the event port while SessionEnded or UnrecognizedTag is presented, with the tag it then holds, and outside `S_EMIT`. -/
def Obligations.OutputsOfEndingEventsAndOutsideEmit : Prop :=
  ∀ (s : State) (plIdx : Half),
    (s.st = .emit → s.evk = .ended →
        (outputs s plIdx).evValid = true ∧ (outputs s plIdx).port = { EventPort.zero with evKind := 2, evTag := s.tag } ∧ (Inv s → s.tag = 0xDEAD))
      ∧ (s.st = .emit → s.evk = .unrec →
        (outputs s plIdx).evValid = true ∧ (outputs s plIdx).port = { EventPort.zero with evKind := 3, evTag := s.tag }
          ∧ (Inv s → s.tag ≠ 0x0100 ∧ s.tag ≠ 0x0318 ∧ s.tag ≠ 0xDEAD))
      ∧ (s.st ≠ .emit → (outputs s plIdx).evValid = false ∧ (outputs s plIdx).port = EventPort.zero)

/-- R92: while an event is presented and not taken, no register and no byte of FB changes, and every output is constant for each `pl_idx`. -/
def Obligations.PresentedEventIsStable : Prop :=
  ∀ s : State, Inv s → s.st = .emit → s.pins.rst = false → s.pins.evReady = false →
    step s = .next { s with inputs := s.inputs.tail } ∧ ∀ t plIdx, step s = .next t → outputs t plIdx = outputs s plIdx

/-- R93, R66: at the event handshake the FTD leaves `S_EMIT`, and in the next cycle `ev_valid` and every other `ev_*` and `pl_*` output is 0. -/
def Obligations.PayloadViewEndsAtTheHandshake : Prop :=
  ∀ s t : State, s.st = .emit → s.pins.rst = false → s.pins.evReady = true → step s = .next t →
    t.st ≠ .emit ∧ ∀ plIdx, (outputs t plIdx).evValid = false ∧ (outputs t plIdx).port = EventPort.zero

/-! ## Invariants -/

/-- The invariant holds after reset, whatever DRAIN_MAX and the environment are (R89). -/
def Obligations.InvariantHoldsAfterReset : Prop :=
  ∀ (drainMax : Nat) (inputs : List Inputs), Inv (State.resetWith drainMax inputs)

/-- R12, R17, R18, R23, R31, R75, R78, R81: every step keeps the invariant, from every state that meets it and for all pins. -/
def Obligations.EveryStepKeepsTheInvariant : Prop :=
  ∀ s t : State, Inv s → step s = .next t → Inv t

/-- R70, R12, R23: a state that meets the invariant always steps: the FTD never stalls and never leaves its frame buffer. -/
def Obligations.InvariantStatesAlwaysStep : Prop :=
  ∀ s : State, Inv s → ∃ t, step s = .next t

/-! ## Whole frames -/

/-- R72, R61, R97: a debug frame, its 544 bytes offered without a wait and its event taken at once, takes 545 cycles, hands over the DebugMessage of its payload
and leaves the FTD reading the next tag, with the payload in FB and nothing else changed. -/
def Obligations.DebugFrameRunsFromTagToTag : Prop :=
  ∀ (s : State) (payload : List Byte) (rest : List Inputs),
    s.st = .tag → s.cnt = 0 → s.fb.wf = true → payload.length = 542 → s.inputs = (Frame.dbg payload).cycles ++ rest →
    ∃ t, runSteps 545 s = .next t
      ∧ t = { s with tag := 0x0100, evk := .debug, rdq := true, fb := t.fb, inputs := rest, events := s.events ++ [debugEventOf payload],
                     taken := s.taken + 544 }
      ∧ ∀ off, t.fb.read off = if off < 542 then payload.getD off 0 else s.fb.read off

/-- R74, R55, R97: a trace frame whose record passes the check takes `L + 6` cycles for `L >= 1`, hands over the TraceRecordEvent of its buffer and leaves the FTD
reading the next tag, with the buffer in FB and nothing else changed. The model's choice (log 10): FB holds the buffer's bytes from offset 36871 on too, where R5
lets an implementation store none. -/
def Obligations.TraceFrameRunsFromTagToTag : Prop :=
  ∀ (s : State) (buffer : List Byte) (e : Event) (rest : List Inputs),
    s.st = .tag → s.cnt = 0 → s.fb.wf = true → buffer.length < 65536 → traceEventOf buffer = some e → s.inputs = (Frame.trc buffer).cycles ++ rest →
    ∃ t, runSteps (buffer.length + 6) s = .next t
      ∧ t = { s with tag := 0x0318, tlen := BitVec.ofNat 16 buffer.length, evk := .trace, rdq := true, fb := t.fb, inputs := rest,
                     events := s.events ++ [e], taken := s.taken + 4 + buffer.length }
      ∧ ∀ off, t.fb.read off = if off < buffer.length then buffer.getD off 0 else s.fb.read off

/-- R74, R50, R79, R80: a trace frame whose record fails the check takes `L + 5` cycles to reach the drain with cause TruncatedRecord, and hands over no
event; the buffer's bytes stay in FB. The model's choice (log 10): FB holds its bytes from offset 36871 on too, where R5 lets an implementation store none. -/
def Obligations.TruncatedTraceFrameEndsTheSession : Prop :=
  ∀ (s : State) (buffer : List Byte) (rest : List Inputs),
    s.st = .tag → s.cnt = 0 → s.fb.wf = true → buffer.length < 65536 → traceEventOf buffer = none →
    s.inputs = (Frame.trc buffer).bytes.map byteCycle ++ Inputs.quiet :: rest →
    ∃ t, runSteps (buffer.length + 5) s = .next t
      ∧ t = { s with st := .drain, cause := .truncatedRecord, dcnt := 0, tag := 0x0318, tlen := BitVec.ofNat 16 buffer.length, rdq := false, fb := t.fb,
                     inputs := rest, taken := s.taken + 4 + buffer.length }
      ∧ ∀ off, t.fb.read off = if off < buffer.length then buffer.getD off 0 else s.fb.read off

/-- R76, R77, R66, R67, R97: an END or UNREC frame, its event taken at once and `k <= DRAIN_MAX` bytes drained after it, takes `k + 4` cycles to `S_TERM`, hands
over its event and records its cause; an UNREC event carries the tag. -/
def Obligations.EndingFrameRunsToTermination : Prop :=
  ∀ (s : State) (f : Frame) (drained : List Byte) (rest : List Inputs),
    s.st = .tag → s.cnt = 0 → f.wf = true → drained.length ≤ s.drainMax →
    s.inputs = f.cycles ++ drained.map byteCycle ++ Inputs.quiet :: rest →
    (f = .endSession →
      runSteps (drained.length + 4) s
        = .next { s with st := .term, tag := 0xDEAD, evk := .ended, cause := .sessionEnded, dcnt := drained.length, rdq := false, inputs := rest,
                         events := s.events ++ [.sessionEnded], taken := s.taken + 2 + drained.length })
      ∧ ∀ tag, f = .unrec tag →
        runSteps (drained.length + 4) s
          = .next { s with st := .term, tag := tag, evk := .unrec, cause := .unrecognizedTag, dcnt := drained.length, rdq := false, inputs := rest,
                           events := s.events ++ [.unrecognizedTag tag], taken := s.taken + 2 + drained.length }

/-- R40 to R43, R66, R71 to R76: a session of debug frames and complete trace records, ended by an END frame, hands over the events of its frames in order, then
SessionEnded, and stops with cause `C_SESSION_ENDED`. -/
def Obligations.SessionHandsOverTheEventsOfItsFrames : Prop :=
  ∀ (s : State) (frames : List Frame) (events : List Event) (rest : List Inputs),
    s.st = .tag → s.cnt = 0 → s.fb.wf = true →
    (∀ f ∈ frames, f.wf = true ∧ (f.instr = .dbg ∨ f.instr = .trc)) → frames.map Frame.event = events.map some →
    s.inputs = frames.flatMap Frame.cycles ++ Frame.endSession.cycles ++ Inputs.quiet :: rest →
    ∃ t, runSteps ((frames.flatMap Frame.cycles).length + 4) s = .next t
      ∧ t.st = .term ∧ t.cause = .sessionEnded ∧ t.events = s.events ++ events ++ [.sessionEnded] ∧ t.inputs = rest
      ∧ t.taken = s.taken + (frames.map Frame.length).sum + 2
end

