-- ==== Sys2Proof/Laws/Decode.lean ====
section
/-! SUPPORT. The small lemmas of the tag word: byte order and classification. -/

namespace Sys2Proof

theorem halfOfBytes_toNat (b0 b1 : Byte) : (halfOfBytes b0 b1).toNat = b0.toNat + 256 * b1.toNat := by
  have h := BitVec.toNat_append (x := b1) (y := b0)
  have h0 := b0.isLt
  show (b1 ++ b0).toNat = _
  rw [h, Nat.shiftLeft_eq, Nat.mul_comm, ← Nat.two_pow_add_eq_or_of_lt (by simpa using h0)]
  omega

theorem loByte_toNat (h : Half) : (loByte h).toNat = h.toNat % 256 := by
  simp [loByte, BitVec.extractLsb'_toNat]

theorem hiByte_toNat (h : Half) : (hiByte h).toNat = h.toNat / 256 := by
  have := h.isLt
  simp only [hiByte, BitVec.extractLsb'_toNat, Nat.shiftRight_eq_div_pow]
  omega

@[simp] theorem loByte_halfOfBytes (b0 b1 : Byte) : loByte (halfOfBytes b0 b1) = b0 := by
  apply BitVec.eq_of_toNat_eq
  have := b0.isLt
  rw [loByte_toNat, halfOfBytes_toNat]
  omega

@[simp] theorem hiByte_halfOfBytes (b0 b1 : Byte) : hiByte (halfOfBytes b0 b1) = b1 := by
  apply BitVec.eq_of_toNat_eq
  have := b0.isLt
  rw [hiByte_toNat, halfOfBytes_toNat]
  omega

@[simp] theorem halfOfBytes_lo_hi (h : Half) : halfOfBytes (loByte h) (hiByte h) = h := by
  apply BitVec.eq_of_toNat_eq
  rw [halfOfBytes_toNat, loByte_toNat, hiByte_toNat]
  omega

@[simp] theorem setLoByte_loByte (h : Half) (b : Byte) : loByte (setLoByte h b) = b := by simp [setLoByte]
@[simp] theorem setLoByte_hiByte (h : Half) (b : Byte) : hiByte (setLoByte h b) = hiByte h := by simp [setLoByte]
@[simp] theorem setHiByte_loByte (h : Half) (b : Byte) : loByte (setHiByte h b) = loByte h := by simp [setHiByte]
@[simp] theorem setHiByte_hiByte (h : Half) (b : Byte) : hiByte (setHiByte h b) = b := by simp [setHiByte]

/-- Storing a low byte, then a high byte, gives the little-endian value of the two. -/
@[simp] theorem setHiByte_setLoByte (h : Half) (b0 b1 : Byte) : setHiByte (setLoByte h b0) b1 = halfOfBytes b0 b1 := by simp [setHiByte]

@[simp] theorem tagClass_tagDebug : tagClass Config.tagDebug = .dbg := by decide
@[simp] theorem tagClass_tagTrace : tagClass Config.tagTrace = .trc := by decide
@[simp] theorem tagClass_tagEnd : tagClass Config.tagEnd = .endSession := by decide

theorem isUnrecTag_iff (tag : Half) : isUnrecTag tag = true ↔ tag ≠ Config.tagDebug ∧ tag ≠ Config.tagTrace ∧ tag ≠ Config.tagEnd := by
  simp [isUnrecTag, and_assoc]

theorem tagClass_of_unrec {tag : Half} (h : isUnrecTag tag = true) : tagClass tag = .unrec tag := by
  rw [isUnrecTag_iff] at h
  simp [tagClass, h.1, h.2.1, h.2.2]

/-- Every tag has exactly one of the four classes. -/
theorem tagClass_cases (tag : Half) :
    (tag = Config.tagDebug ∧ tagClass tag = .dbg) ∨ (tag = Config.tagTrace ∧ tagClass tag = .trc)
      ∨ (tag = Config.tagEnd ∧ tagClass tag = .endSession) ∨ (isUnrecTag tag = true ∧ tagClass tag = .unrec tag) := by
  by_cases h1 : tag = Config.tagDebug
  · exact .inl ⟨h1, by simp [h1]⟩
  by_cases h2 : tag = Config.tagTrace
  · exact .inr (.inl ⟨h2, by simp [h2]⟩)
  by_cases h3 : tag = Config.tagEnd
  · exact .inr (.inr (.inl ⟨h3, by simp [h3]⟩))
  · have hu := (isUnrecTag_iff tag).2 ⟨h1, h2, h3⟩
    exact .inr (.inr (.inr ⟨hu, tagClass_of_unrec hu⟩))

end Sys2Proof
end

