-- ==== Sys2Proof/Laws/State.lean ====
section
/-! SUPPORT. One lemma for each field of State and each state update of `Machine/Ops.lean` and `Machine/Cycle.lean`, and what the pins of an updated state are. -/

namespace Sys2Proof.Machine

/-! ### raiseError -/

@[simp] theorem raiseError_st (e : Error) (s : State) : (raiseError e s).st = St.drain := rfl
@[simp] theorem raiseError_cnt (e : Error) (s : State) : (raiseError e s).cnt = 0 := rfl
@[simp] theorem raiseError_tag (e : Error) (s : State) : (raiseError e s).tag = s.tag := rfl
@[simp] theorem raiseError_tlen (e : Error) (s : State) : (raiseError e s).tlen = s.tlen := rfl
@[simp] theorem raiseError_evk (e : Error) (s : State) : (raiseError e s).evk = s.evk := rfl
@[simp] theorem raiseError_cause (e : Error) (s : State) : (raiseError e s).cause = e.cause := rfl
@[simp] theorem raiseError_dcnt (e : Error) (s : State) : (raiseError e s).dcnt = 0 := rfl
@[simp] theorem raiseError_rdq (e : Error) (s : State) : (raiseError e s).rdq = s.rdq := rfl
@[simp] theorem raiseError_fb (e : Error) (s : State) : (raiseError e s).fb = s.fb := rfl
@[simp] theorem raiseError_drainMax (e : Error) (s : State) : (raiseError e s).drainMax = s.drainMax := rfl
@[simp] theorem raiseError_inputs (e : Error) (s : State) : (raiseError e s).inputs = s.inputs := rfl
@[simp] theorem raiseError_events (e : Error) (s : State) : (raiseError e s).events = s.events := rfl
@[simp] theorem raiseError_taken (e : Error) (s : State) : (raiseError e s).taken = s.taken := rfl
@[simp] theorem raiseError_pins (e : Error) (s : State) : (raiseError e s).pins = s.pins := rfl

/-! ### endSession -/

@[simp] theorem endSession_st (c : Cause) (s : State) : (endSession c s).st = St.drain := rfl
@[simp] theorem endSession_cnt (c : Cause) (s : State) : (endSession c s).cnt = s.cnt := rfl
@[simp] theorem endSession_tag (c : Cause) (s : State) : (endSession c s).tag = s.tag := rfl
@[simp] theorem endSession_tlen (c : Cause) (s : State) : (endSession c s).tlen = s.tlen := rfl
@[simp] theorem endSession_evk (c : Cause) (s : State) : (endSession c s).evk = s.evk := rfl
@[simp] theorem endSession_cause (c : Cause) (s : State) : (endSession c s).cause = c := rfl
@[simp] theorem endSession_dcnt (c : Cause) (s : State) : (endSession c s).dcnt = 0 := rfl
@[simp] theorem endSession_rdq (c : Cause) (s : State) : (endSession c s).rdq = s.rdq := rfl
@[simp] theorem endSession_fb (c : Cause) (s : State) : (endSession c s).fb = s.fb := rfl
@[simp] theorem endSession_drainMax (c : Cause) (s : State) : (endSession c s).drainMax = s.drainMax := rfl
@[simp] theorem endSession_inputs (c : Cause) (s : State) : (endSession c s).inputs = s.inputs := rfl
@[simp] theorem endSession_events (c : Cause) (s : State) : (endSession c s).events = s.events := rfl
@[simp] theorem endSession_taken (c : Cause) (s : State) : (endSession c s).taken = s.taken := rfl
@[simp] theorem endSession_pins (c : Cause) (s : State) : (endSession c s).pins = s.pins := rfl

/-! ### resetRegisters -/

@[simp] theorem resetRegisters_st (s : State) : (resetRegisters s).st = St.idle := rfl
@[simp] theorem resetRegisters_cnt (s : State) : (resetRegisters s).cnt = 0 := rfl
@[simp] theorem resetRegisters_tag (s : State) : (resetRegisters s).tag = 0 := rfl
@[simp] theorem resetRegisters_tlen (s : State) : (resetRegisters s).tlen = 0 := rfl
@[simp] theorem resetRegisters_evk (s : State) : (resetRegisters s).evk = EventKind.debug := rfl
@[simp] theorem resetRegisters_cause (s : State) : (resetRegisters s).cause = Cause.noCause := rfl
@[simp] theorem resetRegisters_dcnt (s : State) : (resetRegisters s).dcnt = 0 := rfl
@[simp] theorem resetRegisters_rdq (s : State) : (resetRegisters s).rdq = false := rfl
@[simp] theorem resetRegisters_fb (s : State) : (resetRegisters s).fb = s.fb := rfl
@[simp] theorem resetRegisters_drainMax (s : State) : (resetRegisters s).drainMax = s.drainMax := rfl
@[simp] theorem resetRegisters_inputs (s : State) : (resetRegisters s).inputs = s.inputs := rfl
@[simp] theorem resetRegisters_events (s : State) : (resetRegisters s).events = s.events := rfl
@[simp] theorem resetRegisters_taken (s : State) : (resetRegisters s).taken = s.taken := rfl
@[simp] theorem resetRegisters_pins (s : State) : (resetRegisters s).pins = s.pins := rfl

/-! ### startRead -/

@[simp] theorem startRead_st (x : St) (s : State) : (startRead x s).st = x := rfl
@[simp] theorem startRead_cnt (x : St) (s : State) : (startRead x s).cnt = 0 := rfl
@[simp] theorem startRead_tag (x : St) (s : State) : (startRead x s).tag = s.tag := rfl
@[simp] theorem startRead_tlen (x : St) (s : State) : (startRead x s).tlen = s.tlen := rfl
@[simp] theorem startRead_evk (x : St) (s : State) : (startRead x s).evk = s.evk := rfl
@[simp] theorem startRead_cause (x : St) (s : State) : (startRead x s).cause = s.cause := rfl
@[simp] theorem startRead_dcnt (x : St) (s : State) : (startRead x s).dcnt = s.dcnt := rfl
@[simp] theorem startRead_rdq (x : St) (s : State) : (startRead x s).rdq = true := rfl
@[simp] theorem startRead_fb (x : St) (s : State) : (startRead x s).fb = s.fb := rfl
@[simp] theorem startRead_drainMax (x : St) (s : State) : (startRead x s).drainMax = s.drainMax := rfl
@[simp] theorem startRead_inputs (x : St) (s : State) : (startRead x s).inputs = s.inputs := rfl
@[simp] theorem startRead_events (x : St) (s : State) : (startRead x s).events = s.events := rfl
@[simp] theorem startRead_taken (x : St) (s : State) : (startRead x s).taken = s.taken := rfl
@[simp] theorem startRead_pins (x : St) (s : State) : (startRead x s).pins = s.pins := rfl

/-! ### present -/

@[simp] theorem present_st (k : EventKind) (s : State) : (present k s).st = St.emit := rfl
@[simp] theorem present_cnt (k : EventKind) (s : State) : (present k s).cnt = s.cnt := rfl
@[simp] theorem present_tag (k : EventKind) (s : State) : (present k s).tag = s.tag := rfl
@[simp] theorem present_tlen (k : EventKind) (s : State) : (present k s).tlen = s.tlen := rfl
@[simp] theorem present_evk (k : EventKind) (s : State) : (present k s).evk = k := rfl
@[simp] theorem present_cause (k : EventKind) (s : State) : (present k s).cause = s.cause := rfl
@[simp] theorem present_dcnt (k : EventKind) (s : State) : (present k s).dcnt = s.dcnt := rfl
@[simp] theorem present_rdq (k : EventKind) (s : State) : (present k s).rdq = s.rdq := rfl
@[simp] theorem present_fb (k : EventKind) (s : State) : (present k s).fb = s.fb := rfl
@[simp] theorem present_drainMax (k : EventKind) (s : State) : (present k s).drainMax = s.drainMax := rfl
@[simp] theorem present_inputs (k : EventKind) (s : State) : (present k s).inputs = s.inputs := rfl
@[simp] theorem present_events (k : EventKind) (s : State) : (present k s).events = s.events := rfl
@[simp] theorem present_taken (k : EventKind) (s : State) : (present k s).taken = s.taken := rfl
@[simp] theorem present_pins (k : EventKind) (s : State) : (present k s).pins = s.pins := rfl

/-! ### beginCycle -/

@[simp] theorem beginCycle_st (s : State) : (beginCycle s).st = s.st := rfl
@[simp] theorem beginCycle_cnt (s : State) : (beginCycle s).cnt = s.cnt := rfl
@[simp] theorem beginCycle_tag (s : State) : (beginCycle s).tag = s.tag := rfl
@[simp] theorem beginCycle_tlen (s : State) : (beginCycle s).tlen = s.tlen := rfl
@[simp] theorem beginCycle_evk (s : State) : (beginCycle s).evk = s.evk := rfl
@[simp] theorem beginCycle_cause (s : State) : (beginCycle s).cause = s.cause := rfl
@[simp] theorem beginCycle_dcnt (s : State) : (beginCycle s).dcnt = s.dcnt := rfl
@[simp] theorem beginCycle_rdq (s : State) : (beginCycle s).rdq = false := rfl
@[simp] theorem beginCycle_fb (s : State) : (beginCycle s).fb = s.fb := rfl
@[simp] theorem beginCycle_drainMax (s : State) : (beginCycle s).drainMax = s.drainMax := rfl
@[simp] theorem beginCycle_inputs (s : State) : (beginCycle s).inputs = s.inputs := rfl
@[simp] theorem beginCycle_events (s : State) : (beginCycle s).events = s.events ++ handedOver s := rfl
@[simp] theorem beginCycle_taken (s : State) : (beginCycle s).taken = s.taken + bytesTaken s := rfl
@[simp] theorem beginCycle_pins (s : State) : (beginCycle s).pins = s.pins := rfl

/-! ### endCycle -/

@[simp] theorem endCycle_st (s : State) : (endCycle s).st = s.st := rfl
@[simp] theorem endCycle_cnt (s : State) : (endCycle s).cnt = s.cnt := rfl
@[simp] theorem endCycle_tag (s : State) : (endCycle s).tag = s.tag := rfl
@[simp] theorem endCycle_tlen (s : State) : (endCycle s).tlen = s.tlen := rfl
@[simp] theorem endCycle_evk (s : State) : (endCycle s).evk = s.evk := rfl
@[simp] theorem endCycle_cause (s : State) : (endCycle s).cause = s.cause := rfl
@[simp] theorem endCycle_dcnt (s : State) : (endCycle s).dcnt = s.dcnt := rfl
@[simp] theorem endCycle_rdq (s : State) : (endCycle s).rdq = s.rdq := rfl
@[simp] theorem endCycle_fb (s : State) : (endCycle s).fb = s.fb := rfl
@[simp] theorem endCycle_drainMax (s : State) : (endCycle s).drainMax = s.drainMax := rfl
@[simp] theorem endCycle_inputs (s : State) : (endCycle s).inputs = s.inputs.tail := rfl
@[simp] theorem endCycle_events (s : State) : (endCycle s).events = s.events := rfl
@[simp] theorem endCycle_taken (s : State) : (endCycle s).taken = s.taken := rfl

/-! ### pins -/

@[simp] theorem State.pins_cons (s : State) (p : Inputs) (ps : List Inputs) : State.pins { s with inputs := p :: ps } = p := rfl

theorem State.pins_of_inputs {s : State} {p : Inputs} {ps : List Inputs} (h : s.inputs = p :: ps) : s.pins = p := by
  simp [State.pins, h]

/-! ### outcomes -/

@[simp] theorem andThen_next (s : State) (k : State → Result) : andThen (.next s) k = k s := rfl
@[simp] theorem andThen_fault (r : Fault) (k : State → Result) : andThen (.fault r) k = .fault r := rfl
@[simp] theorem andThen_refused (r : Refusal) (k : State → Result) : andThen (.refused r) k = .refused r := rfl

/-- A chain that answers next went through a next state. -/
theorem andThen_eq_next {o : Result} {k : State → Result} {t : State} (h : andThen o k = .next t) : ∃ s, o = .next s ∧ k s = .next t := by
  cases o with
  | next s => exact ⟨s, rfl, h⟩
  | fault r => cases h
  | refused r => cases h

end Sys2Proof.Machine
end

