-- ==== Sys2Proof/Laws/Memory.lean ====
section
/-! SUPPORT. The laws of the frame buffer: a read after a write, the canonical form and what it says, and `memWrite`. -/

namespace Sys2Proof.Machine

@[simp] theorem Memory.read_nil (off : Nat) : Memory.read [] off = Memory.unlisted := rfl

theorem Memory.read_cons (a : Nat) (v : Byte) (m : Memory) (off : Nat) :
    Memory.read ((a, v) :: m) off = if a = off then v else Memory.read m off := rfl

/-- Below the canonical form's first offset nothing is listed. -/
theorem Memory.read_of_wfFrom {m : Memory} {lo off : Nat} (h : Memory.wfFrom lo m = true) (hlt : off < lo) : m.read off = Memory.unlisted := by
  induction m generalizing lo with
  | nil => rfl
  | cons c m ih =>
    obtain ⟨a, v⟩ := c
    simp only [Memory.wfFrom, Bool.and_eq_true, decide_eq_true_eq] at h
    rw [Memory.read_cons, if_neg (by omega)]
    exact ih h.2 (by omega)

/-- From FB_SIZE on nothing is listed. -/
theorem Memory.read_of_fbSize_le {m : Memory} {lo off : Nat} (h : Memory.wfFrom lo m = true) (hge : Config.fbSize ≤ off) :
    m.read off = Memory.unlisted := by
  induction m generalizing lo with
  | nil => rfl
  | cons c m ih =>
    obtain ⟨a, v⟩ := c
    simp only [Memory.wfFrom, Bool.and_eq_true, decide_eq_true_eq] at h
    rw [Memory.read_cons, if_neg (by omega)]
    exact ih h.2

theorem Memory.wfFrom_mono {m : Memory} {lo lo' : Nat} (h : Memory.wfFrom lo m = true) (hle : lo' ≤ lo) : Memory.wfFrom lo' m = true := by
  cases m with
  | nil => rfl
  | cons c m =>
    obtain ⟨a, v⟩ := c
    simp only [Memory.wfFrom, Bool.and_eq_true, decide_eq_true_eq] at h ⊢
    exact ⟨⟨⟨by omega, h.1.1.2⟩, h.1.2⟩, h.2⟩

/-- A read after a write gives the value written at its offset, and what was there before elsewhere. It holds of canonical frame buffers. -/
theorem Memory.read_write {m : Memory} {lo off : Nat} {v : Byte} (h : Memory.wfFrom lo m = true) (x : Nat) :
    (m.write off v).read x = if off = x then v else m.read x := by
  induction m generalizing lo with
  | nil =>
    unfold Memory.write
    split <;> simp_all [Memory.read_cons]
  | cons c m ih =>
    obtain ⟨a, u⟩ := c
    simp only [Memory.wfFrom, Bool.and_eq_true, decide_eq_true_eq] at h
    unfold Memory.write
    by_cases h1 : off < a
    · rw [if_pos h1]
      by_cases hv : v = Memory.unlisted
      · rw [if_pos hv]
        by_cases hx : off = x
        · subst hx
          rw [if_pos rfl, hv, Memory.read_cons, if_neg (by omega)]
          exact Memory.read_of_wfFrom h.2 (by omega)
        · rw [if_neg hx]
      · rw [if_neg hv, Memory.read_cons]
    · rw [if_neg h1]
      by_cases h2 : off = a
      · subst h2
        rw [if_pos rfl]
        by_cases hv : v = Memory.unlisted
        · rw [if_pos hv]
          by_cases hx : off = x
          · subst hx
            rw [if_pos rfl, hv]
            exact Memory.read_of_wfFrom h.2 (by omega)
          · rw [if_neg hx, Memory.read_cons, if_neg hx]
        · rw [if_neg hv, Memory.read_cons, Memory.read_cons]
          by_cases hx : off = x
          · rw [if_pos hx, if_pos hx]
          · simp [hx]
      · rw [if_neg h2, Memory.read_cons, Memory.read_cons, ih h.2]
        by_cases hx : a = x
        · subst hx
          simp [h2]
        · simp [hx]

theorem Memory.wfFrom_write {m : Memory} {lo off : Nat} {v : Byte} (h : Memory.wfFrom lo m = true) (hlo : lo ≤ off) (hoff : off < Config.fbSize) :
    Memory.wfFrom lo (m.write off v) = true := by
  induction m generalizing lo with
  | nil =>
    unfold Memory.write
    split
    · rfl
    · simp_all [Memory.wfFrom]
  | cons c m ih =>
    obtain ⟨a, u⟩ := c
    have hc := h
    simp only [Memory.wfFrom, Bool.and_eq_true, decide_eq_true_eq] at h
    unfold Memory.write
    by_cases h1 : off < a
    · rw [if_pos h1]
      by_cases hv : v = Memory.unlisted
      · rw [if_pos hv]; exact hc
      · rw [if_neg hv]
        simp only [Memory.wfFrom, Bool.and_eq_true, decide_eq_true_eq, bne_iff_ne]
        exact ⟨⟨⟨hlo, hoff⟩, hv⟩, ⟨⟨⟨by omega, h.1.1.2⟩, by simpa using h.1.2⟩, h.2⟩⟩
    · rw [if_neg h1]
      by_cases h2 : off = a
      · subst h2
        rw [if_pos rfl]
        by_cases hv : v = Memory.unlisted
        · rw [if_pos hv]; exact Memory.wfFrom_mono h.2 (by omega)
        · rw [if_neg hv]
          simp only [Memory.wfFrom, Bool.and_eq_true, decide_eq_true_eq, bne_iff_ne]
          exact ⟨⟨⟨hlo, hoff⟩, hv⟩, h.2⟩
      · rw [if_neg h2]
        simp only [Memory.wfFrom, Bool.and_eq_true, decide_eq_true_eq]
        exact ⟨h.1, ih h.2 (by omega)⟩

/-- A write at an offset the frame buffer has keeps its canonical form. -/
theorem Memory.wf_write {m : Memory} {off : Nat} {v : Byte} (h : m.wf = true) (hoff : off < Config.fbSize) : (m.write off v).wf = true :=
  Memory.wfFrom_write h (Nat.zero_le _) hoff

@[simp] theorem Memory.wf_nil : Memory.wf [] = true := rfl

/-- Canonical frame buffers that read the same everywhere are the same list. -/
theorem Memory.ext_of_wfFrom {m m' : Memory} {lo lo' : Nat} (h : Memory.wfFrom lo m = true) (h' : Memory.wfFrom lo' m' = true)
    (hr : ∀ x, m.read x = m'.read x) : m = m' := by
  induction m generalizing m' lo lo' with
  | nil =>
    cases m' with
    | nil => rfl
    | cons c m' =>
      obtain ⟨a, v⟩ := c
      simp only [Memory.wfFrom, Bool.and_eq_true, decide_eq_true_eq, bne_iff_ne] at h'
      have := hr a
      rw [Memory.read_cons, if_pos rfl] at this
      exact absurd this.symm h'.1.2
  | cons c m ih =>
    obtain ⟨a, v⟩ := c
    simp only [Memory.wfFrom, Bool.and_eq_true, decide_eq_true_eq, bne_iff_ne] at h
    cases m' with
    | nil =>
      have := hr a
      rw [Memory.read_cons, if_pos rfl] at this
      exact absurd this h.1.2
    | cons c' m' =>
      obtain ⟨a', v'⟩ := c'
      simp only [Memory.wfFrom, Bool.and_eq_true, decide_eq_true_eq, bne_iff_ne] at h'
      have haa : a = a' := by
        rcases Nat.lt_trichotomy a a' with hlt | heq | hgt
        · have := hr a
          rw [Memory.read_cons, if_pos rfl, Memory.read_cons, if_neg (by omega), Memory.read_of_wfFrom h'.2 (by omega)] at this
          exact absurd this h.1.2
        · exact heq
        · have := hr a'
          rw [Memory.read_cons, if_neg (by omega), Memory.read_cons, if_pos rfl, Memory.read_of_wfFrom h.2 (by omega)] at this
          exact absurd this.symm h'.1.2
      subst haa
      have hvv : v = v' := by
        have := hr a
        rwa [Memory.read_cons, if_pos rfl, Memory.read_cons, if_pos rfl] at this
      subst hvv
      have hm : m = m' := by
        refine ih h.2 h'.2 fun x => ?_
        by_cases hx : a = x
        · subst hx
          rw [Memory.read_of_wfFrom h.2 (by omega), Memory.read_of_wfFrom h'.2 (by omega)]
        · have := hr x
          rwa [Memory.read_cons, if_neg hx, Memory.read_cons, if_neg hx] at this
      rw [hm]

/-! ### memRead -/

@[simp] theorem memRead_zero (m : Memory) (off : Nat) : memRead m off 0 = 0 := rfl

theorem memRead_succ (m : Memory) (off n : Nat) : memRead m off (n + 1) = (m.read off).toNat + 256 * memRead m (off + 1) n := rfl

theorem memRead_lt (m : Memory) (off n : Nat) : memRead m off n < 256 ^ n := by
  induction n generalizing off with
  | zero => simp
  | succ n ih =>
    have := ih (off + 1)
    have hb := (m.read off).isLt
    rw [memRead_succ, pow_succ]
    omega

/-- A read depends on its own bytes only. -/
theorem memRead_congr {m m' : Memory} {off n : Nat} (h : ∀ x, off ≤ x → x < off + n → m.read x = m'.read x) :
    memRead m off n = memRead m' off n := by
  induction n generalizing off with
  | zero => rfl
  | succ n ih =>
    rw [memRead_succ, memRead_succ, h off (by omega) (by omega), ih fun x hx hx' => h x (by omega) (by omega)]

/-! ### memWrite -/

theorem memWrite_of_lt {off : Nat} {v : Byte} {s : State} (h : off < Config.fbSize) : memWrite off v s = .next { s with fb := s.fb.write off v } := if_pos h

theorem memWrite_of_not_lt {off : Nat} {v : Byte} {s : State} (h : ¬ off < Config.fbSize) : memWrite off v s = .fault (.frameBufferOffset off) := if_neg h

/-- Everything `memWrite` can do when it answers a next state. -/
theorem memWrite_eq_next {off : Nat} {v : Byte} {s t : State} (h : memWrite off v s = .next t) :
    off < Config.fbSize ∧ t = { s with fb := s.fb.write off v } := by
  unfold memWrite at h
  split at h
  · exact ⟨‹_›, by cases h; rfl⟩
  · cases h

end Sys2Proof.Machine
end

