-- ==== Sys2Proof/Laws/Ops.lean ====
section
/-! SUPPORT. What each shared operation of `Machine/Ops.lean` can do, said once. -/

namespace Sys2Proof.Machine

/-- The four read states (R11). -/
theorem isRead_cases {x : St} (h : x.isRead = true) : x = .tag ∨ x = .dbg ∨ x = .tlen ∨ x = .tbuf := by
  cases x <;> simp [St.isRead] at h ⊢

/-! ### store (R61) -/

theorem store_tag {s : State} (h : s.st = .tag) (c : Nat) (b : Byte) :
    store c b s = .next { s with tag := if c = 0 then setLoByte s.tag b else setHiByte s.tag b } := by simp [store, h]

theorem store_tlen {s : State} (h : s.st = .tlen) (c : Nat) (b : Byte) :
    store c b s = .next { s with tlen := if c = 0 then setLoByte s.tlen b else setHiByte s.tlen b } := by simp [store, h]

theorem store_dbg {s : State} (h : s.st = .dbg) (c : Nat) (b : Byte) : store c b s = memWrite c b s := by simp [store, h]

theorem store_tbuf {s : State} (h : s.st = .tbuf) (c : Nat) (b : Byte) : store c b s = memWrite c b s := by simp [store, h]

/-- Everything `store` can do in a read state. -/
theorem store_eq_next {c : Nat} {b : Byte} {s t : State} (hr : s.st.isRead = true) (h : store c b s = .next t) :
    (s.st = .tag ∧ t = { s with tag := if c = 0 then setLoByte s.tag b else setHiByte s.tag b })
      ∨ (s.st = .tlen ∧ t = { s with tlen := if c = 0 then setLoByte s.tlen b else setHiByte s.tlen b })
      ∨ ((s.st = .dbg ∨ s.st = .tbuf) ∧ c < Config.fbSize ∧ t = { s with fb := s.fb.write c b }) := by
  rcases isRead_cases hr with hs | hs | hs | hs
  · rw [store_tag hs] at h; cases h; exact .inl ⟨hs, rfl⟩
  · rw [store_dbg hs] at h; exact .inr (.inr ⟨.inl hs, memWrite_eq_next h⟩)
  · rw [store_tlen hs] at h; cases h; exact .inr (.inl ⟨hs, rfl⟩)
  · rw [store_tbuf hs] at h; exact .inr (.inr ⟨.inr hs, memWrite_eq_next h⟩)

/-- `store` leaves everything but the tag, the trace length and the frame buffer alone. -/
theorem store_frame {c : Nat} {b : Byte} {s t : State} (h : store c b s = .next t) :
    t = { s with tag := t.tag, tlen := t.tlen, fb := t.fb } := by
  unfold store at h
  split at h
  all_goals first | (cases h; rfl) | (obtain ⟨_, rfl⟩ := memWrite_eq_next h; rfl)

/-- A byte at an offset the frame buffer has is always stored. -/
theorem store_ok {c : Nat} (b : Byte) (s : State) (h : c < Config.fbSize) : ∃ t, store c b s = .next t := by
  cases hs : s.st <;> simp [store, hs, memWrite_of_lt h]

/-! ### timeouts (R62) -/

theorem timeoutItem_retry {s : State} (h : s.st = .tag) : timeoutItem 0 s = startRead .tag s := if_pos ⟨h, rfl⟩

theorem timeoutItem_raise {s : State} {c : Nat} (h : ¬ (s.st = .tag ∧ c = 0)) : timeoutItem c s = raiseError .truncatedFrame s := if_neg h

@[simp] theorem timeoutItem_succ (s : State) (c : Nat) : timeoutItem (c + 1) s = raiseError .truncatedFrame s := if_neg fun h => Nat.succ_ne_zero c h.2

theorem countByte_timeout {s : State} (h : s.pins.inTimeout = true) (c : Nat) : countByte (c + 1) s = raiseError .truncatedFrame s := by simp [countByte, h]

theorem countByte_more {s : State} (h : s.pins.inTimeout = false) (c : Nat) : countByte c s = { s with cnt := BitVec.ofNat 16 c } := by simp [countByte, h]

/-! ### the read cycle (R60) -/

theorem readCycle_closed {s : State} (k : State → Result) (h : s.pins.inClosed = true) : readCycle k s = .next (raiseError .transportClosed s) := by
  simp [readCycle, h]

theorem readCycle_byte {s : State} (k : State → Result) (hc : s.pins.inClosed = false) (hv : s.pins.inValid = true) :
    readCycle k s = andThen (store s.cnt.toNat s.pins.inData s) fun t =>
      if s.cnt.toNat + 1 = readLen s then k { t with cnt := 0 } else .next (countByte (s.cnt.toNat + 1) t) := by
  simp [readCycle, hc, hv]

theorem readCycle_timeout {s : State} (k : State → Result) (hc : s.pins.inClosed = false) (hv : s.pins.inValid = false) (ht : s.pins.inTimeout = true) :
    readCycle k s = .next (timeoutItem s.cnt.toNat s) := by
  simp [readCycle, hc, hv, ht]

theorem readCycle_wait {s : State} (k : State → Result) (hc : s.pins.inClosed = false) (hv : s.pins.inValid = false) (ht : s.pins.inTimeout = false) :
    readCycle k s = .next s := by
  simp [readCycle, hc, hv, ht]

/-- Everything a read cycle can do when it answers a next state. -/
theorem readCycle_eq_next {k : State → Result} {s t : State} (h : readCycle k s = .next t) :
    (s.pins.inClosed = true ∧ t = raiseError .transportClosed s)
      ∨ (s.pins.inClosed = false ∧ s.pins.inValid = true ∧ s.cnt.toNat + 1 = readLen s
        ∧ ∃ u, store s.cnt.toNat s.pins.inData s = .next u ∧ k { u with cnt := 0 } = .next t)
      ∨ (s.pins.inClosed = false ∧ s.pins.inValid = true ∧ s.cnt.toNat + 1 ≠ readLen s
        ∧ ∃ u, store s.cnt.toNat s.pins.inData s = .next u ∧ t = countByte (s.cnt.toNat + 1) u)
      ∨ (s.pins.inClosed = false ∧ s.pins.inValid = false ∧ s.pins.inTimeout = true ∧ t = timeoutItem s.cnt.toNat s)
      ∨ (s.pins.inClosed = false ∧ s.pins.inValid = false ∧ s.pins.inTimeout = false ∧ t = s) := by
  cases hc : s.pins.inClosed
  · cases hv : s.pins.inValid
    · cases ht : s.pins.inTimeout
      · rw [readCycle_wait k hc hv ht] at h
        cases h
        exact .inr (.inr (.inr (.inr ⟨rfl, rfl, rfl, rfl⟩)))
      · rw [readCycle_timeout k hc hv ht] at h
        cases h
        exact .inr (.inr (.inr (.inl ⟨rfl, rfl, rfl, rfl⟩)))
    · rw [readCycle_byte k hc hv] at h
      obtain ⟨u, hu, hk⟩ := andThen_eq_next h
      by_cases hl : s.cnt.toNat + 1 = readLen s
      · rw [if_pos hl] at hk
        exact .inr (.inl ⟨rfl, rfl, hl, u, hu, hk⟩)
      · rw [if_neg hl] at hk
        cases hk
        exact .inr (.inr (.inl ⟨rfl, rfl, hl, u, hu, rfl⟩))
  · rw [readCycle_closed k hc] at h
    cases h
    exact .inl ⟨rfl, rfl⟩

/-! ### reads, the drain, the handshake -/

theorem readLen_tag {s : State} (h : s.st = .tag) : readLen s = 2 := by simp [readLen, h, Config.tagLen]
theorem readLen_dbg {s : State} (h : s.st = .dbg) : readLen s = 542 := by simp [readLen, h, Config.dbgPayloadLen]
theorem readLen_tlen {s : State} (h : s.st = .tlen) : readLen s = 2 := by simp [readLen, h, Config.tagLen]
theorem readLen_tbuf {s : State} (h : s.st = .tbuf) : readLen s = s.tlen.toNat := by simp [readLen, h]

/-- No read is longer than the frame buffer. -/
theorem readLen_le (s : State) : readLen s ≤ Config.fbSize := by
  have := s.tlen.isLt
  unfold readLen
  split <;> simp [Config.tagLen, Config.dbgPayloadLen, Config.fbSize]
  omega

theorem drainCycle_stop {s : State} (h : s.pins.inClosed = true ∨ s.pins.inValid = false ∨ s.dcnt = s.drainMax) :
    drainCycle s = { s with st := .term } := if_pos h

theorem drainCycle_byte {s : State} (h : ¬ (s.pins.inClosed = true ∨ s.pins.inValid = false ∨ s.dcnt = s.drainMax)) :
    drainCycle s = { s with dcnt := s.dcnt + 1 } := if_neg h

theorem awaitHandshake_ready {s : State} (after : State → State) (h : s.pins.evReady = true) : awaitHandshake after s = after s := if_pos h

theorem awaitHandshake_wait {s : State} (after : State → State) (h : s.pins.evReady = false) : awaitHandshake after s = s := by
  simp [awaitHandshake, h]

theorem idleCycle_start {s : State} (h : s.pins.start = true) : idleCycle s = startRead .tag s := if_pos h

theorem idleCycle_wait {s : State} (h : s.pins.start = false) : idleCycle s = s := by simp [idleCycle, h]

/-- A completed length of 0 goes to the check, any other begins the buffer read (R64). -/
theorem lengthComplete_cases (s : State) :
    (s.tlen = 0 ∧ lengthComplete s = { s with st := .dec }) ∨ (s.tlen ≠ 0 ∧ lengthComplete s = startRead .tbuf s) := by
  unfold lengthComplete
  by_cases h : s.tlen = 0
  · exact .inl ⟨h, if_pos h⟩
  · exact .inr ⟨h, if_neg h⟩

end Sys2Proof.Machine
end

