-- ==== Sys2Proof/Laws/Fields.lean ====
section
/-! SUPPORT. The record fields of TRD and the debug text: their values, their bounds, and which frame-buffer bytes they read. -/

namespace Sys2Proof.Machine

theorem timestamp_toNat (m : Memory) : (timestamp m).toNat = memRead m 0 4 := by
  simp only [timestamp, BitVec.toNat_ofNat]
  exact Nat.mod_eq_of_lt (by simpa using memRead_lt m 0 4)

theorem duration_toNat (m : Memory) : (duration m).toNat = memRead m 4 2 := by
  simp only [duration, BitVec.toNat_ofNat]
  exact Nat.mod_eq_of_lt (by simpa using memRead_lt m 4 2)

theorem rawDataLen_toNat (m : Memory) : (rawDataLen m).toNat = memRead m 6 2 := by
  simp only [rawDataLen, BitVec.toNat_ofNat]
  exact Nat.mod_eq_of_lt (by simpa using memRead_lt m 6 2)

theorem rawDataLen_eq (m : Memory) : rawDataLen m = halfOfBytes (m.read 6) (m.read 7) := by
  apply BitVec.eq_of_toNat_eq
  rw [rawDataLen_toNat, halfOfBytes_toNat]
  simp [memRead]

theorem dataLen_eq (m : Memory) : dataLen m = (rawDataLen m).toNat % 32768 := by
  simp [dataLen, dataLenBits, BitVec.extractLsb'_toNat]

/-- The mask 0x8000 picks bit 15 (R48, R49). -/
theorem dirFlag_eq (m : Memory) : dirFlag m = (rawDataLen m).getLsbD 15 := by
  unfold dirFlag
  rw [show Config.dirMask = BitVec.twoPow 16 15 from by decide, BitVec.and_twoPow]
  cases (rawDataLen m).getLsbD 15 <;> decide

theorem dataLen_lt (m : Memory) : dataLen m < 32768 := (dataLenBits m).isLt

theorem plen_eq (m : Memory) : plen m = (dataLen m + 7) / 8 := rfl

theorem need_eq (m : Memory) : need m = 8 + dataLen m + plen m := rfl

theorem plen_le (m : Memory) : plen m ≤ 4096 := by
  have := dataLen_lt m
  rw [plen_eq]
  omega

theorem trdCheck_ok_iff (len : Nat) (m : Memory) : trdCheck len m = .ok ↔ 8 ≤ len ∧ need m ≤ len := by
  unfold trdCheck Config.trcHdrLen
  split
  · simp; omega
  · split
    · simp; omega
    · simp; omega

theorem trdCheck_truncated_iff (len : Nat) (m : Memory) : trdCheck len m = .truncatedRecord ↔ ¬ trdCheck len m = .ok := by
  cases trdCheck len m <;> simp

theorem textLen_le (m : Memory) : textLen m ≤ 512 := Nat.min_le_right _ _

/-! ### what the fields read -/

/-- The header fields read bytes 0 to 7 only. -/
theorem header_congr {m m' : Memory} (h : ∀ x, x < 8 → m.read x = m'.read x) :
    timestamp m = timestamp m' ∧ duration m = duration m' ∧ rawDataLen m = rawDataLen m' := by
  refine ⟨?_, ?_, ?_⟩
  · unfold timestamp; rw [memRead_congr fun x _ hx => h x (by omega)]
  · unfold duration; rw [memRead_congr fun x _ hx => h x (by omega)]
  · rw [rawDataLen_eq, rawDataLen_eq, h 6 (by omega), h 7 (by omega)]

/-- The record's lengths follow from `rawDataLen`. -/
theorem lengths_congr {m m' : Memory} (h : rawDataLen m = rawDataLen m') :
    dirFlag m = dirFlag m' ∧ dataLenBits m = dataLenBits m' ∧ dataLen m = dataLen m' ∧ plen m = plen m' ∧ need m = need m' := by
  have hb : dataLenBits m = dataLenBits m' := by unfold dataLenBits; rw [h]
  have hd : dataLen m = dataLen m' := by unfold dataLen; rw [hb]
  have hp : plen m = plen m' := by unfold plen; rw [hd]
  exact ⟨by unfold dirFlag; rw [h], hb, hd, hp, by unfold need; rw [hd, hp]⟩

/-- A data byte, its parity byte and its parity bit lie below `need`. -/
theorem payload_congr {m m' : Memory} (h : ∀ x, x < need m → m.read x = m'.read x) (hd : dataLen m = dataLen m') :
    (∀ i, i < dataLen m → dataByte m i = dataByte m' i) ∧ (∀ j, j < plen m → parityByte m j = parityByte m' j)
      ∧ (∀ i, i < dataLen m → pbit m i = pbit m' i) ∧ ∀ i, i < dataLen m → parOk m i = parOk m' i := by
  have hn := need_eq m
  have hp := plen_eq m
  have hdata : ∀ i, i < dataLen m → dataByte m i = dataByte m' i := fun i hi => h (8 + i) (by omega)
  have hpar : ∀ j, j < plen m → parityByte m j = parityByte m' j := by
    intro j hj
    unfold parityByte
    rw [← hd]
    exact h (8 + dataLen m + j) (by omega)
  have hbit : ∀ i, i < dataLen m → pbit m i = pbit m' i := by
    intro i hi
    unfold pbit
    rw [hpar _ (by omega)]
  exact ⟨hdata, hpar, hbit, fun i hi => by unfold parOk; rw [hdata i hi, hbit i hi]⟩

/-- The debug message reads payload bytes 6 to 13 and its text only (R32). -/
theorem debug_congr {m m' : Memory} (h : ∀ x, x < 542 → m.read x = m'.read x) :
    msgLen m = msgLen m' ∧ ∀ i, i < textLen m → textByte m i = textByte m' i := by
  refine ⟨?_, fun i hi => ?_⟩
  · exact memRead_congr fun x _ hx => h x (by simp only [Config.dbgLenOff] at hx; omega)
  · have := textLen_le m
    exact h (30 + i) (by omega)

end Sys2Proof.Machine
end

