-- ==== Sys2Proof/Laws/PerInstr.lean ====
section
/-! SUPPORT. Statements made of every operation as syntax, one lemma for each constructor of Instr. -/

namespace Sys2Proof.Laws.ClassOfTag

/-- The tag of a well-formed operation has that operation's class. -/
def Statement (i : Instr) : Prop := i.wf = true → tagClass i.tag = i

theorem dbg : Statement .dbg := fun _ => tagClass_tagDebug
theorem trc : Statement .trc := fun _ => tagClass_tagTrace
theorem endSession : Statement .endSession := fun _ => tagClass_tagEnd
theorem unrec (tag : Half) : Statement (.unrec tag) := fun h => tagClass_of_unrec h

end Sys2Proof.Laws.ClassOfTag
end

