-- ==== Sys2Proof/Laws/Step.lean ====
section
/-! SUPPORT. Everything one cycle can do, said once: the transitions of `cycleBody` as one inductive relation, and what a step adds around them. -/

namespace Sys2Proof.Machine

/-- The transitions of the case of `Step()` (R56): each constructor names its state and the pins that choose it. -/
inductive CycleStep (s : State) : State → Prop
  | idleWait (hs : s.st = .idle) (h : s.pins.start = false) : CycleStep s s
  | idleStart (hs : s.st = .idle) (h : s.pins.start = true) : CycleStep s (startRead .tag s)
  | closed (hr : s.st.isRead = true) (h : s.pins.inClosed = true) : CycleStep s (raiseError .transportClosed s)
  | readWait (hr : s.st.isRead = true) (hc : s.pins.inClosed = false) (hv : s.pins.inValid = false) (ht : s.pins.inTimeout = false) : CycleStep s s
  | idleTimeout (hs : s.st = .tag) (hn : s.cnt = 0) (hc : s.pins.inClosed = false) (hv : s.pins.inValid = false) (ht : s.pins.inTimeout = true) :
      CycleStep s (startRead .tag s)
  | timeout (hr : s.st.isRead = true) (hn : ¬ (s.st = .tag ∧ s.cnt = 0)) (hc : s.pins.inClosed = false) (hv : s.pins.inValid = false)
      (ht : s.pins.inTimeout = true) : CycleStep s (raiseError .truncatedFrame s)
  | byteMore (hr : s.st.isRead = true) (hc : s.pins.inClosed = false) (hv : s.pins.inValid = true) (ht : s.pins.inTimeout = false)
      (hn : s.cnt.toNat + 1 ≠ readLen s) (u : State) (hu : store s.cnt.toNat s.pins.inData s = .next u) :
      CycleStep s { u with cnt := BitVec.ofNat 16 (s.cnt.toNat + 1) }
  | byteTimeout (hr : s.st.isRead = true) (hc : s.pins.inClosed = false) (hv : s.pins.inValid = true) (ht : s.pins.inTimeout = true)
      (hn : s.cnt.toNat + 1 ≠ readLen s) (u : State) (hu : store s.cnt.toNat s.pins.inData s = .next u) :
      CycleStep s (raiseError .truncatedFrame u)
  | tagDone (hs : s.st = .tag) (hc : s.pins.inClosed = false) (hv : s.pins.inValid = true) (hn : s.cnt = 1) (t : State)
      (ht : exec (tagClass (setHiByte s.tag s.pins.inData)) { s with tag := setHiByte s.tag s.pins.inData, cnt := 0 } = .next t) : CycleStep s t
  | dbgDone (hs : s.st = .dbg) (hc : s.pins.inClosed = false) (hv : s.pins.inValid = true) (hn : s.cnt.toNat + 1 = 542) :
      CycleStep s (present .debug { s with fb := s.fb.write s.cnt.toNat s.pins.inData, cnt := 0 })
  | tlenDone (hs : s.st = .tlen) (hc : s.pins.inClosed = false) (hv : s.pins.inValid = true) (hn : s.cnt = 1) :
      CycleStep s (lengthComplete { s with tlen := setHiByte s.tlen s.pins.inData, cnt := 0 })
  | tbufDone (hs : s.st = .tbuf) (hc : s.pins.inClosed = false) (hv : s.pins.inValid = true) (hn : s.cnt.toNat + 1 = s.tlen.toNat) :
      CycleStep s { s with fb := s.fb.write s.cnt.toNat s.pins.inData, cnt := 0, st := .dec }
  | decOk (hs : s.st = .dec) (h : trdCheck s.tlen.toNat s.fb = .ok) : CycleStep s (present .trace s)
  | decTruncated (hs : s.st = .dec) (h : trdCheck s.tlen.toNat s.fb = .truncatedRecord) : CycleStep s (raiseError .truncatedRecord s)
  | emitWait (hs : s.st = .emit) (h : s.pins.evReady = false) : CycleStep s s
  | emitFrame (hs : s.st = .emit) (h : s.pins.evReady = true) (hk : s.evk = .debug ∨ s.evk = .trace) : CycleStep s (startRead .tag s)
  | emitEnded (hs : s.st = .emit) (h : s.pins.evReady = true) (hk : s.evk = .ended) : CycleStep s (endSession .sessionEnded s)
  | emitUnrec (hs : s.st = .emit) (h : s.pins.evReady = true) (hk : s.evk = .unrec) : CycleStep s (endSession .unrecognizedTag s)
  | drainStop (hs : s.st = .drain) (h : s.pins.inClosed = true ∨ s.pins.inValid = false ∨ s.dcnt = s.drainMax) :
      CycleStep s { s with st := .term }
  | drainByte (hs : s.st = .drain) (h : ¬ (s.pins.inClosed = true ∨ s.pins.inValid = false ∨ s.dcnt = s.drainMax)) :
      CycleStep s { s with dcnt := s.dcnt + 1 }
  | term (hs : s.st = .term) : CycleStep s s

theorem cnt_eq_one {c : Half} (h : c.toNat + 1 = 2) : c = 1 := by
  apply BitVec.eq_of_toNat_eq
  simp
  omega

theorem cnt_eq_zero {c : Half} (h : c.toNat = 0) : c = 0 := by
  apply BitVec.eq_of_toNat_eq
  simpa using h

/-- What a read cycle in a read state can do: a transition of `CycleStep`, or the completion. -/
theorem readCycle_cases {k : State → Result} {s t : State} (hr : s.st.isRead = true) (h : readCycle k s = .next t) :
    CycleStep s t
      ∨ (s.pins.inClosed = false ∧ s.pins.inValid = true ∧ s.cnt.toNat + 1 = readLen s
        ∧ ∃ u, store s.cnt.toNat s.pins.inData s = .next u ∧ k { u with cnt := 0 } = .next t) := by
  rcases readCycle_eq_next h with ⟨hc, rfl⟩ | hdone | ⟨hc, hv, hn, u, hu, rfl⟩ | ⟨hc, hv, ht, rfl⟩ | ⟨hc, hv, ht, rfl⟩
  · exact .inl (.closed hr hc)
  · exact .inr hdone
  · have hpins : u.pins = s.pins := by rw [store_frame hu]; rfl
    cases ht : s.pins.inTimeout
    · rw [countByte_more (by rw [hpins, ht])]
      exact .inl (.byteMore hr hc hv ht hn u hu)
    · rw [countByte_timeout (by rw [hpins, ht])]
      exact .inl (.byteTimeout hr hc hv ht hn u hu)
  · by_cases hn : s.st = .tag ∧ s.cnt = 0
    · rw [hn.2]
      rw [show (0 : Half).toNat = 0 from rfl, timeoutItem_retry hn.1]
      exact .inl (.idleTimeout hn.1 hn.2 hc hv ht)
    · rw [timeoutItem_raise fun h0 => hn ⟨h0.1, cnt_eq_zero h0.2⟩]
      exact .inl (.timeout hr hn hc hv ht)
  · exact .inl (.readWait hr hc hv ht)

/-- Everything the case of `Step()` can do when it answers a next state. -/
theorem cycleBody_cases {s t : State} (h : cycleBody s = .next t) : CycleStep s t := by
  cases hs : s.st <;> simp only [cycleBody, hs] at h
  case idle =>
    cases hp : s.pins.start
    · rw [idleCycle_wait hp] at h; cases h; exact .idleWait hs hp
    · rw [idleCycle_start hp] at h; cases h; exact .idleStart hs hp
  case tag =>
    rcases readCycle_cases (by simp [hs, St.isRead]) h with hcs | ⟨hc, hv, hn, u, hu, hk⟩
    · exact hcs
    · rw [readLen_tag hs] at hn
      rw [store_tag hs, if_neg (by omega)] at hu
      cases hu
      exact .tagDone hs hc hv (cnt_eq_one hn) t hk
  case dbg =>
    simp only [exec, execDbg, hs] at h
    rcases readCycle_cases (by simp [hs, St.isRead]) h with hcs | ⟨hc, hv, hn, u, hu, hk⟩
    · exact hcs
    · rw [readLen_dbg hs] at hn
      rw [store_dbg hs] at hu
      obtain ⟨_, rfl⟩ := memWrite_eq_next hu
      cases hk
      exact .dbgDone hs hc hv hn
  case tlen =>
    simp only [exec, execTrc, hs] at h
    rcases readCycle_cases (by simp [hs, St.isRead]) h with hcs | ⟨hc, hv, hn, u, hu, hk⟩
    · exact hcs
    · rw [readLen_tlen hs] at hn
      rw [store_tlen hs, if_neg (by omega)] at hu
      cases hu
      cases hk
      exact .tlenDone hs hc hv (cnt_eq_one hn)
  case tbuf =>
    simp only [exec, execTrc, hs] at h
    rcases readCycle_cases (by simp [hs, St.isRead]) h with hcs | ⟨hc, hv, hn, u, hu, hk⟩
    · exact hcs
    · rw [readLen_tbuf hs] at hn
      rw [store_tbuf hs] at hu
      obtain ⟨_, rfl⟩ := memWrite_eq_next hu
      cases hk
      exact .tbufDone hs hc hv hn
  case dec =>
    simp only [exec, execTrc, hs] at h
    cases h
    unfold decCycle
    split
    · exact .decOk hs ‹_›
    · exact .decTruncated hs ‹_›
  case emit =>
    cases hp : s.pins.evReady <;> cases hk : s.evk
    all_goals
      simp only [pendingInstr, hk, exec, execDbg, execTrc, execEndSession, execUnrec, hs, awaitHandshake, hp] at h
      cases h
    case true.debug => exact .emitFrame hs hp (.inl hk)
    case true.trace => exact .emitFrame hs hp (.inr hk)
    case true.ended => exact .emitEnded hs hp hk
    case true.unrec => exact .emitUnrec hs hp hk
    all_goals exact .emitWait hs hp
  case drain =>
    cases h
    by_cases hd : s.pins.inClosed = true ∨ s.pins.inValid = false ∨ s.dcnt = s.drainMax
    · rw [drainCycle_stop hd]; exact .drainStop hs hd
    · rw [drainCycle_byte hd]; exact .drainByte hs hd
  case term => cases h; exact .term hs

/-- A completed tag, by class: what the operation it selects does (R64). -/
theorem exec_tag {s t : State} (hs : s.st = .tag) {i : Instr} (h : exec i s = .next t) :
    (i = .dbg ∧ t = startRead .dbg s) ∨ (i = .trc ∧ t = startRead .tlen s) ∨ (i = .endSession ∧ t = present .ended s)
      ∨ (∃ tag, i = .unrec tag ∧ t = present .unrec s) := by
  cases i <;> simp only [exec, execDbg, execTrc, execEndSession, execUnrec, hs] at h <;> cases h
  · exact .inl ⟨rfl, rfl⟩
  · exact .inr (.inl ⟨rfl, rfl⟩)
  · exact .inr (.inr (.inl ⟨rfl, rfl⟩))
  · exact .inr (.inr (.inr ⟨_, rfl, rfl⟩))

/-- Everything a step can do when it answers a next state: a reset, or a transition with the cycle's surroundings. -/
theorem step_cases {s t : State} (h : step s = .next t) :
    (s.pins.rst = true ∧ t = endCycle (resetRegisters s))
      ∨ (s.pins.rst = false ∧ ∃ u, CycleStep (beginCycle s) u ∧ t = endCycle u) := by
  unfold step cycle at h
  cases hr : s.pins.rst
  · rw [if_neg (by simp [hr])] at h
    obtain ⟨u, hu, hk⟩ := andThen_eq_next h
    cases hk
    exact .inr ⟨rfl, u, cycleBody_cases hu, rfl⟩
  · rw [if_pos hr] at h
    cases h
    exact .inl ⟨rfl, rfl⟩

end Sys2Proof.Machine
end

