-- ==== Sys2Proof/Laws/Runs.lean ====
section
/-! SUPPORT. Steps whose pins are those of a frame offered without a wait, runs of them, and the frame buffer such a run leaves. -/

namespace Sys2Proof.Machine

/-! ### runs -/

theorem step_of_no_reset {s : State} (hr : s.pins.rst = false) :
    step s = andThen (cycleBody (beginCycle s)) fun t => .next (endCycle t) := by
  unfold step cycle
  rw [if_neg (by simp [hr])]

theorem runSteps_one {s t : State} (h : step s = .next t) : runSteps 1 s = .next t := by simp [runSteps, h]

/-- A run of `m + n` steps is a run of `m`, then a run of `n`. -/
theorem runSteps_add (m n : Nat) (s : State) : runSteps (m + n) s = andThen (runSteps m s) (runSteps n) := by
  induction m generalizing s with
  | zero => simp [runSteps]
  | succ m ih =>
    rw [show m + 1 + n = m + n + 1 by omega]
    simp only [runSteps]
    cases step s with
    | next t => simp [ih]
    | fault r => rfl
    | refused r => rfl

/-- Chaining two runs. -/
theorem runSteps_trans {m n : Nat} {s t u : State} (h : runSteps m s = .next t) (h' : runSteps n t = .next u) : runSteps (m + n) s = .next u := by
  rw [runSteps_add, h, andThen_next, h']

/-! ### the frame buffer after a run of byte writes -/

/-- The frame buffer with a list of bytes written from offset `c` on. -/
def Memory.writeAll (m : Memory) (c : Nat) : List Byte → Memory
  | [] => m
  | b :: bs => Memory.writeAll (m.write c b) (c + 1) bs

theorem Memory.wf_writeAll {m : Memory} {c : Nat} {bs : List Byte} (h : m.wf = true) (hc : c + bs.length ≤ Config.fbSize) :
    (m.writeAll c bs).wf = true := by
  induction bs generalizing m c with
  | nil => exact h
  | cons b bs ih =>
    simp only [List.length_cons] at hc
    exact ih (Memory.wf_write h (by omega)) (by omega)

/-- What the frame buffer reads as after the writes. -/
theorem Memory.read_writeAll {m : Memory} {c : Nat} {bs : List Byte} (h : m.wf = true) (hc : c + bs.length ≤ Config.fbSize) (x : Nat) :
    (m.writeAll c bs).read x = if c ≤ x ∧ x < c + bs.length then bs.getD (x - c) 0 else m.read x := by
  induction bs generalizing m c with
  | nil =>
    rw [if_neg (by simp)]
    rfl
  | cons b bs ih =>
    simp only [List.length_cons] at hc ⊢
    rw [Memory.writeAll, ih (Memory.wf_write h (by omega)) (by omega), Memory.read_write h]
    by_cases h1 : c = x
    · subst h1
      simp
    · by_cases h2 : c + 1 ≤ x ∧ x < c + 1 + bs.length
      · rw [if_pos h2, if_pos (by omega)]
        obtain ⟨k, rfl⟩ : ∃ k, x = c + 1 + k := ⟨x - (c + 1), by omega⟩
        rw [show c + 1 + k - (c + 1) = k by omega, show c + 1 + k - c = k + 1 by omega]
        rfl
      · rw [if_neg h2, if_neg h1, if_neg (by omega)]

theorem Memory.writeAll_append (m : Memory) (c : Nat) (bs cs : List Byte) :
    m.writeAll c (bs ++ cs) = (m.writeAll c bs).writeAll (c + bs.length) cs := by
  induction bs generalizing m c with
  | nil => rfl
  | cons b bs ih =>
    simp only [List.cons_append, Memory.writeAll, ih, List.length_cons]
    congr 1
    omega

/-! ### reading fields back from a list of bytes -/

/-- A little-endian read of a frame buffer that holds a list of bytes. -/
theorem memRead_eq_leNat {m : Memory} {bs : List Byte} {off n : Nat} (h : ∀ x, off ≤ x → x < off + n → m.read x = bs.getD x 0)
    (hl : off + n ≤ bs.length) : memRead m off n = leNat (fieldBytes bs off n) := by
  induction n generalizing off with
  | zero => simp [fieldBytes, leNat]
  | succ n ih =>
    have e : fieldBytes bs off (n + 1) = bs.getD off 0 :: fieldBytes bs (off + 1) n := by
      unfold fieldBytes
      rw [List.drop_eq_getElem_cons (by omega), List.take_succ_cons]
      simp [List.getD_eq_getElem?_getD, List.getElem?_eq_getElem (show off < bs.length by omega)]
    rw [memRead_succ, e, leNat, h off (by omega) (by omega), ih (fun x h1 h2 => h x (by omega) (by omega)) (by omega)]

/-- The bytes at consecutive offsets are the field. -/
theorem map_range_eq_fieldBytes {bs : List Byte} {off n : Nat} {f : Nat → Byte} (h : ∀ i, i < n → f i = bs.getD (off + i) 0)
    (hl : off + n ≤ bs.length) : (List.range n).map f = fieldBytes bs off n := by
  apply List.ext_getElem
  · simp [fieldBytes]
    omega
  · intro i h1 h2
    simp at h1
    simp [fieldBytes, h i h1, List.getElem?_eq_getElem (show off + i < bs.length by omega)]

/-! ### one step of a frame -/

/-- Replacing the first part of a chain by what it answers. -/
theorem andThen_of_eq {o o' r : Result} {k : State → Result} (h : o = o') (h' : andThen o' k = r) : andThen o k = r := by rw [h, h']

section
variable {s t : State} {b : Byte} {tl : List Inputs}

/-- A byte cycle in a read state: what begins it. -/
theorem beginCycle_byte (hr : s.st.isRead = true) (hin : s.inputs = byteCycle b :: tl) :
    beginCycle s = { s with rdq := false, taken := s.taken + 1 } := by
  have hp := State.pins_of_inputs hin
  have he : s.st ≠ .emit := by intro h; simp [h, St.isRead] at hr
  simp [beginCycle, handedOver, evValid, he, bytesTaken, hp, byteCycle, inReady, hr]

/-- A byte cycle that does not complete its read. -/
theorem readCycle_byte_more {u : State} (k : State → Result) (hp : s.pins = byteCycle b) (hst : store s.cnt.toNat b s = .next u)
    (hn : s.cnt.toNat + 1 ≠ readLen s) : readCycle k s = .next { u with cnt := BitVec.ofNat 16 (s.cnt.toNat + 1) } := by
  have hu : u.pins = byteCycle b := by rw [store_frame hst]; exact hp
  rw [readCycle_byte k (by rw [hp]; rfl) (by rw [hp]; rfl), hp]
  show andThen (store s.cnt.toNat b s) _ = _
  rw [hst, andThen_next, if_neg hn, countByte_more (by rw [hu]; rfl)]

/-- A byte cycle that completes its read. -/
theorem readCycle_byte_done {u : State} (k : State → Result) (hp : s.pins = byteCycle b) (hst : store s.cnt.toNat b s = .next u)
    (hn : s.cnt.toNat + 1 = readLen s) : readCycle k s = k { u with cnt := 0 } := by
  rw [readCycle_byte k (by rw [hp]; rfl) (by rw [hp]; rfl), hp]
  show andThen (store s.cnt.toNat b s) _ = _
  rw [hst, andThen_next, if_pos hn]

/-- The first tag byte. -/
theorem step_tagByte_first (hs : s.st = .tag) (hn : s.cnt = 0) (hin : s.inputs = byteCycle b :: tl) :
    step s = .next { s with cnt := 1, tag := setLoByte s.tag b, rdq := false, inputs := tl, taken := s.taken + 1 } := by
  have hp := State.pins_of_inputs hin
  rw [step_of_no_reset (by rw [hp]; rfl), beginCycle_byte (by rw [hs]; rfl) hin]
  simp only [cycleBody, hs, tagCycle]
  refine andThen_of_eq (readCycle_byte_more (b := b) (u := { s with tag := setLoByte s.tag b, rdq := false, taken := s.taken + 1, st := .tag }) _ hp
    (by simp [store, hn]) (by simp [readLen, hn, Config.tagLen])) ?_
  simp [endCycle, hin, hn]

/-- The second tag byte: the operation the tag selects runs. -/
theorem step_tagByte_second (hs : s.st = .tag) (hn : s.cnt = 1) (hin : s.inputs = byteCycle b :: tl)
    (hx : exec (tagClass (setHiByte s.tag b)) { s with cnt := 0, tag := setHiByte s.tag b, rdq := false, taken := s.taken + 1 } = .next t) :
    step s = .next (endCycle t) := by
  have hp := State.pins_of_inputs hin
  rw [step_of_no_reset (by rw [hp]; rfl), beginCycle_byte (by rw [hs]; rfl) hin]
  simp only [cycleBody, hs, tagCycle]
  refine andThen_of_eq (readCycle_byte_done (b := b) (u := { s with tag := setHiByte s.tag b, rdq := false, taken := s.taken + 1, st := .tag }) _ hp
    (by simp [store, hn]) (by simp [readLen, hn, Config.tagLen])) ?_
  simp only [hs] at hx
  simp only [hx, andThen_next]

/-- The first length byte. -/
theorem step_lengthByte_first (hs : s.st = .tlen) (hn : s.cnt = 0) (hin : s.inputs = byteCycle b :: tl) :
    step s = .next { s with cnt := 1, tlen := setLoByte s.tlen b, rdq := false, inputs := tl, taken := s.taken + 1 } := by
  have hp := State.pins_of_inputs hin
  rw [step_of_no_reset (by rw [hp]; rfl), beginCycle_byte (by rw [hs]; rfl) hin]
  simp only [cycleBody, hs, exec, execTrc]
  refine andThen_of_eq (readCycle_byte_more (b := b) (u := { s with tlen := setLoByte s.tlen b, rdq := false, taken := s.taken + 1, st := .tlen }) _ hp
    (by simp [store, hn]) (by simp [readLen, hn, Config.tagLen])) ?_
  simp [endCycle, hin, hn]

/-- The second length byte completes a length of 0. -/
theorem step_lengthByte_zero (hs : s.st = .tlen) (hn : s.cnt = 1) (hin : s.inputs = byteCycle b :: tl) (h0 : setHiByte s.tlen b = 0) :
    step s = .next { s with st := .dec, cnt := 0, tlen := 0, rdq := false, inputs := tl, taken := s.taken + 1 } := by
  have hp := State.pins_of_inputs hin
  rw [step_of_no_reset (by rw [hp]; rfl), beginCycle_byte (by rw [hs]; rfl) hin]
  simp only [cycleBody, hs, exec, execTrc]
  refine andThen_of_eq (readCycle_byte_done (b := b) (u := { s with tlen := 0, rdq := false, taken := s.taken + 1, st := .tlen }) _ hp
    (by simp [store, hn, h0]) (by simp [readLen, hn, Config.tagLen])) ?_
  simp [lengthComplete, endCycle, hin]

/-- The second length byte completes a length that is not 0. -/
theorem step_lengthByte_nonzero (hs : s.st = .tlen) (hn : s.cnt = 1) (hin : s.inputs = byteCycle b :: tl) (h0 : setHiByte s.tlen b ≠ 0) :
    step s = .next { s with st := .tbuf, cnt := 0, tlen := setHiByte s.tlen b, rdq := true, inputs := tl, taken := s.taken + 1 } := by
  have hp := State.pins_of_inputs hin
  rw [step_of_no_reset (by rw [hp]; rfl), beginCycle_byte (by rw [hs]; rfl) hin]
  simp only [cycleBody, hs, exec, execTrc]
  refine andThen_of_eq (readCycle_byte_done (b := b) (u := { s with tlen := setHiByte s.tlen b, rdq := false, taken := s.taken + 1, st := .tlen }) _ hp
    (by simp [store, hn]) (by simp [readLen, hn, Config.tagLen])) ?_
  rw [lengthComplete, if_neg h0]
  simp [endCycle, startRead, hin]

/-- A payload or buffer byte that does not complete its read. -/
theorem step_bodyByte_more (hs : s.st = .dbg ∨ s.st = .tbuf) (hin : s.inputs = byteCycle b :: tl) (hn : s.cnt.toNat + 1 < readLen s) :
    step s = .next { s with cnt := BitVec.ofNat 16 (s.cnt.toNat + 1), fb := s.fb.write s.cnt.toNat b, rdq := false, inputs := tl,
                            taken := s.taken + 1 } := by
  have hp := State.pins_of_inputs hin
  have hlt : s.cnt.toNat < Config.fbSize := by have := readLen_le s; omega
  rw [step_of_no_reset (by rw [hp]; rfl), beginCycle_byte (by rcases hs with hs | hs <;> rw [hs] <;> rfl) hin]
  rcases hs with hs | hs
  · simp only [cycleBody, hs, exec, execDbg]
    rw [readLen_dbg hs] at hn
    refine andThen_of_eq (readCycle_byte_more (b := b) (u := { s with fb := s.fb.write s.cnt.toNat b, rdq := false, taken := s.taken + 1, st := .dbg }) _ hp
      (by simp [store, memWrite, hlt]) (by simp only [readLen, Config.dbgPayloadLen]; omega)) ?_
    simp [endCycle, hin]
  · simp only [cycleBody, hs, exec, execTrc]
    rw [readLen_tbuf hs] at hn
    refine andThen_of_eq (readCycle_byte_more (b := b) (u := { s with fb := s.fb.write s.cnt.toNat b, rdq := false, taken := s.taken + 1, st := .tbuf }) _ hp
      (by simp [store, memWrite, hlt]) (by simp only [readLen]; omega)) ?_
    simp [endCycle, hin]

/-- The last payload byte. -/
theorem step_payloadByte_last (hs : s.st = .dbg) (hin : s.inputs = byteCycle b :: tl) (hn : s.cnt.toNat + 1 = 542) :
    step s = .next { s with st := .emit, evk := .debug, cnt := 0, fb := s.fb.write s.cnt.toNat b, rdq := false, inputs := tl,
                            taken := s.taken + 1 } := by
  have hp := State.pins_of_inputs hin
  have hlt : s.cnt.toNat < Config.fbSize := by simp only [Config.fbSize]; omega
  rw [step_of_no_reset (by rw [hp]; rfl), beginCycle_byte (by rw [hs]; rfl) hin]
  simp only [cycleBody, hs, exec, execDbg]
  refine andThen_of_eq (readCycle_byte_done (b := b) (u := { s with fb := s.fb.write s.cnt.toNat b, rdq := false, taken := s.taken + 1, st := .dbg }) _ hp
    (by simp [store, memWrite, hlt]) (by simpa [readLen, Config.dbgPayloadLen] using hn)) ?_
  simp [endCycle, hin, present]

/-- The last buffer byte. -/
theorem step_bufferByte_last (hs : s.st = .tbuf) (hin : s.inputs = byteCycle b :: tl) (hn : s.cnt.toNat + 1 = s.tlen.toNat) :
    step s = .next { s with st := .dec, cnt := 0, fb := s.fb.write s.cnt.toNat b, rdq := false, inputs := tl, taken := s.taken + 1 } := by
  have hp := State.pins_of_inputs hin
  have hlt : s.cnt.toNat < Config.fbSize := by have := s.tlen.isLt; simp only [Config.fbSize]; omega
  rw [step_of_no_reset (by rw [hp]; rfl), beginCycle_byte (by rw [hs]; rfl) hin]
  simp only [cycleBody, hs, exec, execTrc]
  refine andThen_of_eq (readCycle_byte_done (b := b) (u := { s with fb := s.fb.write s.cnt.toNat b, rdq := false, taken := s.taken + 1, st := .tbuf }) _ hp
    (by simp [store, memWrite, hlt]) (by simpa [readLen] using hn)) ?_
  simp [endCycle, hin]

/-- The check cycle, every pin 0. -/
theorem step_check (hs : s.st = .dec) (hin : s.inputs = Inputs.quiet :: tl) :
    step s = .next (endCycle (decCycle { s with rdq := false })) := by
  have hp := State.pins_of_inputs hin
  have hb : beginCycle s = { s with rdq := false } := by
    simp [beginCycle, handedOver, evValid, hs, bytesTaken, hp, Inputs.quiet]
  rw [step_of_no_reset (by rw [hp]; rfl), hb]
  simp [cycleBody, hs, exec, execTrc]

/-- The handshake of a debug or trace event. -/
theorem step_frameHandshake (hs : s.st = .emit) (hk : s.evk = .debug ∨ s.evk = .trace) (hin : s.inputs = readyCycle :: tl) :
    step s = .next { s with st := .tag, cnt := 0, rdq := true, inputs := tl, events := s.events ++ [presentedEvent s] } := by
  have hp := State.pins_of_inputs hin
  have hb : beginCycle s = { s with rdq := false, events := s.events ++ [presentedEvent s] } := by
    simp [beginCycle, handedOver, evValid, hs, bytesTaken, hp, readyCycle, Inputs.quiet]
  have hv : ∀ u : State, u.inputs = s.inputs → u.pins.evReady = true := by
    intro u hu
    rw [State.pins_of_inputs (hu.trans hin)]
    rfl
  rw [step_of_no_reset (by rw [hp]; rfl), hb]
  rcases hk with hk | hk
  · simp only [cycleBody, hs, pendingInstr, hk, exec, execDbg]
    refine andThen_of_eq (congrArg Host.Outcome.next (awaitHandshake_ready _ (hv _ rfl))) ?_
    simp [endCycle, startRead, hin]
  · simp only [cycleBody, hs, pendingInstr, hk, exec, execTrc]
    refine andThen_of_eq (congrArg Host.Outcome.next (awaitHandshake_ready _ (hv _ rfl))) ?_
    simp [endCycle, startRead, hin]

/-- The handshake of SessionEnded. -/
theorem step_endedHandshake (hs : s.st = .emit) (hk : s.evk = .ended) (hin : s.inputs = readyCycle :: tl) :
    step s = .next { s with st := .drain, cause := .sessionEnded, dcnt := 0, rdq := false, inputs := tl,
                            events := s.events ++ [.sessionEnded] } := by
  have hp := State.pins_of_inputs hin
  have hb : beginCycle s = { s with rdq := false, events := s.events ++ [.sessionEnded] } := by
    simp [beginCycle, handedOver, evValid, hs, bytesTaken, hp, readyCycle, Inputs.quiet, presentedEvent, hk]
  rw [step_of_no_reset (by rw [hp]; rfl), hb]
  simp only [cycleBody, hs, pendingInstr, hk, exec, execEndSession]
  refine andThen_of_eq (congrArg Host.Outcome.next (awaitHandshake_ready _ (congrArg Inputs.evReady hp))) ?_
  simp [endCycle, endSession, hin]

/-- A drain cycle in which no byte is offered. -/
theorem step_drain_quiet (hs : s.st = .drain) (hin : s.inputs = Inputs.quiet :: tl) :
    step s = .next { s with st := .term, rdq := false, inputs := tl } := by
  have hp := State.pins_of_inputs hin
  have hb : beginCycle s = { s with rdq := false } := by
    simp [beginCycle, handedOver, evValid, hs, bytesTaken, hp, Inputs.quiet]
  rw [step_of_no_reset (by rw [hp]; rfl), hb]
  simp only [cycleBody, hs]
  refine andThen_of_eq (congrArg Host.Outcome.next (drainCycle_stop (.inr (.inl (congrArg Inputs.inValid hp))))) ?_
  simp [endCycle, hin]

end

/-! ### runs of bytes -/

/-- A run of payload or buffer bytes that does not complete its read. -/
theorem run_bodyBytes (bs : List Byte) {s : State} {tl : List Inputs} (hs : s.st = .dbg ∨ s.st = .tbuf) (hin : s.inputs = bs.map byteCycle ++ tl)
    (hn : s.cnt.toNat + bs.length < readLen s) :
    runSteps bs.length s = .next { s with cnt := BitVec.ofNat 16 (s.cnt.toNat + bs.length)
                                          fb := s.fb.writeAll s.cnt.toNat bs
                                          rdq := if bs = [] then s.rdq else false
                                          inputs := tl
                                          taken := s.taken + bs.length } := by
  induction bs generalizing s with
  | nil =>
    simp at hin
    simp [runSteps, Memory.writeAll, ← hin]
  | cons b bs ih =>
    simp only [List.map_cons, List.cons_append, List.length_cons] at hin hn
    have hle := readLen_le s
    simp only [Config.fbSize] at hle
    have hc : (BitVec.ofNat 16 (s.cnt.toNat + 1)).toNat = s.cnt.toNat + 1 := by
      simp only [BitVec.toNat_ofNat]
      omega
    simp only [List.length_cons, runSteps, step_bodyByte_more hs hin (by omega), andThen_next]
    rw [ih (by exact hs) rfl (by show (BitVec.ofNat 16 (s.cnt.toNat + 1)).toNat + bs.length < readLen s; rw [hc]; omega)]
    simp only [hc, Memory.writeAll]
    rw [show s.cnt.toNat + 1 + bs.length = s.cnt.toNat + (bs.length + 1) by omega,
      show s.taken + 1 + bs.length = s.taken + (bs.length + 1) by omega]
    simp

/-- The tag bytes of a well-formed operation, then the operation's first cycle. -/
theorem run_tag {s t : State} {i : Instr} {tl : List Inputs} (hi : i.wf = true) (hs : s.st = .tag) (hn : s.cnt = 0)
    (hin : s.inputs = (encode i).map byteCycle ++ tl)
    (hx : exec i { s with tag := i.tag, rdq := false, inputs := byteCycle (hiByte i.tag) :: tl, taken := s.taken + 2 } = .next t) :
    runSteps 2 s = .next (endCycle t) := by
  have hcls : tagClass i.tag = i := by
    cases i with
    | dbg => simp [Instr.tag]
    | trc => simp [Instr.tag]
    | endSession => simp [Instr.tag]
    | unrec tag => exact tagClass_of_unrec hi
  have h1 := step_tagByte_first hs hn (b := loByte i.tag) (tl := byteCycle (hiByte i.tag) :: tl) (by rw [hin]; rfl)
  refine runSteps_trans (m := 1) (n := 1) (runSteps_one h1) (runSteps_one ?_)
  refine step_tagByte_second hs rfl rfl ?_
  simp only [setHiByte_setLoByte, halfOfBytes_lo_hi, hcls]
  rw [← hn]
  exact hx

end Sys2Proof.Machine
end

