-- ==== Sys2Proof/Tests/Slice0.lean ====
section
/-! SUPPORT. Small tests of the model, each with the place in `spec/` its expected result comes from, and for every obligation with hypotheses a concrete state
that meets them. -/

namespace Sys2Proof.Tests

open Sys2Proof Sys2Proof.Machine Sys2Proof.Safety

/-! ## Helpers -/

/-- A state for tests: registers as after reset, DRAIN_MAX 2. -/
def base : State := State.resetWith 2 []

/-- A state in dispatcher state `st` with read count `cnt` and coming pins `p`. -/
def inState (st : St) (cnt : Half) (p : Inputs) : State := { base with st := st, cnt := cnt, inputs := [p] }

/-- The frame buffer that holds a list of bytes from offset 0 on. -/
def fbOf (bs : List Byte) : Memory := Memory.writeAll [] 0 bs

/-- The step answers a next state that passes a check. -/
def nextIs (s : State) (p : State → Bool) : Bool :=
  match step s with
  | .next t => p t
  | .fault _ => false
  | .refused _ => false

theorem exists_next {s : State} {p : State → Bool} (h : nextIs s p = true) : ∃ t, step s = .next t ∧ p t = true := by
  unfold nextIs at h
  split at h
  · exact ⟨_, by assumption, h⟩
  · cases h
  · cases h

/-- The buffer of V-E2E-a: need 12, tag→reader, data AA BB CC, parity A0 (`95_test_vectors.md`). -/
def e2eBuffer : List Byte := [0, 0, 0, 0, 0, 0, 0x03, 0x80, 0xAA, 0xBB, 0xCC, 0xA0]

/-- The buffer of V-8009 (`95_test_vectors.md`). -/
def v8009Buffer : List Byte := [0, 0, 0, 0, 0, 0, 0x09, 0x80, 1, 2, 3, 4, 5, 6, 7, 8, 9, 0xFF, 0x80]

/-- A DebugMessage of payload bytes `bs` pending. -/
def debugPending (bs : List Byte) (p : Inputs) : State := { inState .emit 0 p with tag := 0x0100, evk := .debug, fb := fbOf bs }

/-- The start of a debug payload: 6 bytes, the 8-byte length, 16 bytes, the text. -/
def payloadStart (len : List Byte) (text : List Byte) : List Byte := List.replicate 6 0 ++ len ++ List.replicate 16 0 ++ text

/-- `DBG len=5 text="hello"` (R72's example). -/
def helloStart : List Byte := payloadStart [5, 0, 0, 0, 0, 0, 0, 0] [0x68, 0x65, 0x6C, 0x6C, 0x6F]

/-- A TraceRecordEvent of buffer `bs` pending. -/
def tracePending (bs : List Byte) (p : Inputs) : State :=
  { inState .emit 0 p with tag := 0x0318, tlen := BitVec.ofNat 16 bs.length, evk := .trace, fb := fbOf bs }

/-- An ending event pending. -/
def endPending (k : EventKind) (tag : Half) (p : Inputs) : State := { inState .emit 0 p with tag := tag, evk := k }

/-- A trace buffer read complete, the check to come. -/
def checkPending (bs : List Byte) (p : Inputs) : State := { inState .dec 0 p with tag := 0x0318, tlen := BitVec.ofNat 16 bs.length, fb := fbOf bs }

/-- A drain in progress, after TransportClosed. -/
def draining (dcnt : Nat) (p : Inputs) : State := { inState .drain 0 p with cause := .transportClosed, dcnt := dcnt }

/-- A byte and a timeout in one cycle. -/
def byteAndTimeout (b : Byte) : Inputs := { byteCycle b with inTimeout := true }

/-- A reset cycle in which a byte is offered and the consumer is ready. -/
def resetCycle : Inputs := { byteCycle 0x55 with rst := true, evReady := true }

/-- The cycle of `start`. -/
def startCycle : Inputs := { Inputs.quiet with start := true }

/-! ## WellFormed: ill-formed terms are refused (R39) -/

theorem test_wf_refuses_unrec_debug_tag : (Instr.unrec 0x0100).wf = false := by decide
theorem test_wf_refuses_unrec_trace_tag : (Instr.unrec 0x0318).wf = false := by decide
theorem test_wf_refuses_unrec_end_tag : (Instr.unrec 0xDEAD).wf = false := by decide
theorem test_wf_accepts : Instr.dbg.wf = true ∧ Instr.trc.wf = true ∧ Instr.endSession.wf = true ∧ (Instr.unrec 0xADDE).wf = true := by decide

/-! ## Decoding: words written out from the table's wire bytes (R38, R39, R45) -/

/-- `00 01`, one bit a digit, the first byte on the wire first. -/
theorem test_decode_dbg : decode [0b00000000, 0b00000001, 0x77] = .instr .dbg [0x77] := by decide
/-- `18 03`. -/
theorem test_decode_trc : decode [0b00011000, 0b00000011, 0x77] = .instr .trc [0x77] := by decide
/-- `AD DE`. -/
theorem test_decode_end : decode [0b10101101, 0b11011110] = .instr .endSession [] := by decide
/-- `FF FF` (V-UNREC). -/
theorem test_decode_unrec : decode [0b11111111, 0b11111111] = .instr (.unrec 0xFFFF) [] := by decide
/-- The byte-swapped spellings (R77). -/
theorem test_decode_swapped : decode [0x01, 0x00] = .instr (.unrec 0x0001) [] ∧ decode [0x03, 0x18] = .instr (.unrec 0x1803) [] ∧
    decode [0xDE, 0xAD] = .instr (.unrec 0xADDE) [] := by decide
theorem test_decode_rejects : decode [] = .reject .noTag ∧ decode [0x00] = .reject .halfTag := by decide
theorem test_encode : encode .dbg = [0x00, 0x01] ∧ encode .trc = [0x18, 0x03] ∧ encode .endSession = [0xAD, 0xDE] ∧
    encode (.unrec 0x1803) = [0x03, 0x18] := by decide

/-- The table's words, a tag word and a tag word with the length or payload bits of its row. -/
theorem test_decodeTableWord : decodeTableWord 16 0x0100 = some .dbg ∧ decodeTableWord 16 0x0318 = some .trc ∧
    decodeTableWord 16 0xDEAD = some .endSession ∧ decodeTableWord 16 0x0000 = some (.unrec 0x0000) ∧
    decodeTableWord 32 0x00050318 = some .trc := by decide

/-- A length longer than 16 bits: `LEN 12` is the bytes `0C 00` (R45, V-E2E). -/
theorem test_lenBytes : lenBytes 12 = [0x0C, 0x00] ∧ lenBytes 0x0B00 = [0x00, 0x0B] := by decide

/-- The wire bytes of V-E2E-a, and decoding them back. -/
theorem test_frame_e2e :
    (Frame.trc e2eBuffer).bytes = [0x18, 0x03, 0x0C, 0x00, 0, 0, 0, 0, 0, 0, 0x03, 0x80, 0xAA, 0xBB, 0xCC, 0xA0] ∧
      decodeFrame ((Frame.trc e2eBuffer).bytes ++ [0xAD]) = .frame (.trc e2eBuffer) [0xAD] := by decide

/-! ## The step runs a placed word as its first instruction (`withFetchWord`) -/

theorem test_fetch :
    nextIs (State.reset.withFetchWord 16 0x0100) (fun t => t.st == .dbg && t.tag == 0x0100 && t.rdq) = true ∧
      nextIs (State.reset.withFetchWord 16 0x0318) (fun t => t.st == .tlen && t.tag == 0x0318 && t.rdq) = true ∧
      nextIs (State.reset.withFetchWord 16 0xDEAD) (fun t => t.st == .emit && t.evk == .ended && t.tag == 0xDEAD) = true ∧
      nextIs (State.reset.withFetchWord 16 0x1803) (fun t => t.st == .emit && t.evk == .unrec && t.tag == 0x1803) = true := by decide

/-! ## PCHK and TRD -/

/-- V-PAR-EX, and R46's corner cases. -/
theorem test_pchk : pchk 0x3F true = true ∧ pchk 0x3F false = false ∧ pchk 0x00 false = false ∧ pchk 0x00 true = true ∧ pchk 0xFF false = false := by
  decide

/-- V-8009. -/
theorem test_v8009_fields : rawDataLen (fbOf v8009Buffer) = 0x8009 ∧ dirFlag (fbOf v8009Buffer) = true ∧ dataLen (fbOf v8009Buffer) = 9 ∧
    plen (fbOf v8009Buffer) = 2 ∧ need (fbOf v8009Buffer) = 19 := by decide

/-- R55's example: with `L = 19` the check is OK, with `L = 18` it is TruncatedRecord. -/
theorem test_v8009_check : trdCheck 19 (fbOf v8009Buffer) = .ok ∧ trdCheck 18 (fbOf v8009Buffer) = .truncatedRecord := by decide

/-- A buffer with 9 data bytes and parity `p0 p1`. -/
def i78Buffer (p0 p1 : Byte) : List Byte := [0, 0, 0, 0, 0, 0, 9, 0] ++ List.replicate 9 0 ++ [p0, p1]

/-- V-I78, the rows `01 00` and `FE 80`. -/
theorem test_pbit_across_bytes :
    (pbit (fbOf (i78Buffer 0x01 0x00)) 6, pbit (fbOf (i78Buffer 0x01 0x00)) 7, pbit (fbOf (i78Buffer 0x01 0x00)) 8) = (false, true, false) ∧
      (pbit (fbOf (i78Buffer 0xFE 0x80)) 6, pbit (fbOf (i78Buffer 0xFE 0x80)) 7, pbit (fbOf (i78Buffer 0xFE 0x80)) 8) = (true, false, true) := by decide

/-- R26: the header fields are little-endian. -/
theorem test_header_little_endian :
    timestamp (fbOf [0x78, 0x56, 0x34, 0x12]) = 0x12345678 ∧ duration (fbOf [0, 0, 0, 0, 0x22, 0x11]) = 0x1122 := by decide

/-! ## One step of each operation -/

/-- DBG: R72's example, `len=5 text="hello"`. -/
theorem test_dbg_hello : nextIs (debugPending helloStart readyCycle) (fun t =>
    t.st == .tag && t.rdq && t.events == [.debugMessage [0x68, 0x65, 0x6C, 0x6C, 0x6F] false]) = true := by decide

/-- DBG: a length of 513 is clamped to 512, one of 512 is not (R72, R73). -/
theorem test_dbg_clamp :
    (outputs (debugPending (payloadStart [0x01, 0x02, 0, 0, 0, 0, 0, 0] []) Inputs.quiet) 0).port.evClamp = true ∧
      (outputs (debugPending (payloadStart [0x01, 0x02, 0, 0, 0, 0, 0, 0] []) Inputs.quiet) 0).port.evLen = 512 ∧
      (outputs (debugPending (payloadStart [0x00, 0x02, 0, 0, 0, 0, 0, 0] []) Inputs.quiet) 0).port.evClamp = false ∧
      (outputs (debugPending (payloadStart [0, 0, 0, 0, 0, 0, 0, 0x01] []) Inputs.quiet) 0).port.evClamp = true := by decide

/-- TRC: V-E2E-a at its handshake. -/
theorem test_trc_e2e : nextIs (tracePending e2eBuffer readyCycle) (fun t =>
    t.st == .tag && t.events == [.traceRecord { timestamp := 0, duration := 0, direction := .tagToReader, dataLen := 3, data := [0xAA, 0xBB, 0xCC],
                                                parity := [0xA0], parOk := [true, false, true], pbit := [true, false, true] }]) = true := by decide

/-- TRC: V-E2E-b, 11 of the 12 bytes: TruncatedRecord and no event. -/
theorem test_trc_truncated : nextIs (checkPending (e2eBuffer.take 11) Inputs.quiet) (fun t =>
    t.st == .drain && t.cause == .truncatedRecord && t.events == []) = true := by decide

/-- END: V-END at its handshake. -/
theorem test_end : nextIs (endPending .ended 0xDEAD readyCycle) (fun t =>
    t.st == .drain && t.cause == .sessionEnded && t.events == [.sessionEnded]) = true := by decide

/-- UNREC: V-UNREC at its handshake. -/
theorem test_unrec : nextIs (endPending .unrec 0xFFFF readyCycle) (fun t =>
    t.st == .drain && t.cause == .unrecognizedTag && t.events == [.unrecognizedTag 0xFFFF]) = true := by decide

/-- The cause, done and state of `status` after END (R22): `{001, 1, 1000}`. -/
theorem test_status : (outputs { base with st := .term, cause := .sessionEnded } 0).status = 0b00111000 := by decide

/-! ## Cycles -/

/-- R63, R82: closure comes before a byte and a timeout; the byte is taken. -/
theorem test_closed_first : nextIs (inState .tag 0 { byteAndTimeout 0x18 with inClosed := true }) (fun t =>
    t.st == .drain && t.cause == .transportClosed && t.tag == 0 && t.taken == 1) = true := by decide

/-- R82: the byte that completes the tag drops the timeout. -/
theorem test_byte_before_timeout : nextIs { inState .tag 1 (byteAndTimeout 0x03) with tag := 0x0018 } (fun t =>
    t.st == .tlen && t.cause == .noCause) = true := by decide

/-- R62: the first tag byte and a timeout in one cycle is TruncatedFrame, with no byte it is an idle retry. -/
theorem test_timeout_in_tag : nextIs (inState .tag 0 (byteAndTimeout 0x18)) (fun t => t.st == .drain && t.cause == .truncatedFrame && t.cnt == 0) = true ∧
    nextIs (inState .tag 0 timeoutCycle) (fun t => t.st == .tag && t.cause == .noCause && t.rdq) = true := by decide

/-- R67: below DRAIN_MAX a byte is discarded, at DRAIN_MAX the drain stops and takes nothing. -/
theorem test_drain : nextIs (draining 1 (byteCycle 9)) (fun t => t.st == .drain && t.dcnt == 2 && t.taken == 1) = true ∧
    nextIs (draining 2 (byteCycle 9)) (fun t => t.st == .term && t.dcnt == 2 && t.taken == 0) = true := by decide

/-- R64: a trace length of 0 goes to the check with no `rd_start`. -/
theorem test_length_zero : nextIs (inState .tlen 1 (byteCycle 0)) (fun t => t.st == .dec && !t.rdq) = true := by decide

/-- R24, R23 and log 6: the last offset of FB, and the first that does not exist. -/
theorem test_memWrite_bounds : memWrite 65535 1 base = .fault (.frameBufferOffset 65535) ∧ memWrite 65534 1 base = .next { base with fb := [(65534, 1)] } :=
  ⟨rfl, rfl⟩

/-- R45: `TAG 0x0318; LEN 0; CLOSED`: the closure takes a cycle of its own at the end, and is held over a later item. -/
theorem test_stream : streamCycles false (streamTag 0x0318 ++ streamLen 0 ++ [.closed])
      = [byteCycle 0x18, byteCycle 0x03, byteCycle 0, byteCycle 0, closedCycle] ∧
    streamCycles false [.timeout, .closed, .byte 7] = [timeoutCycle, { byteCycle 7 with inClosed := true }] := by decide

/-! ## Witnesses: for every obligation with hypotheses, states that meet them together -/

/-- A state the invariant holds in: a debug read about to take its last byte. -/
def lastPayloadByte (p : Inputs) : State := { inState .dbg 541 p with tag := 0x0100 }

/-- A trace-buffer read of `len` bytes, `cnt` of them taken. -/
def inBuffer (len cnt : Half) (p : Inputs) : State := { inState .tbuf cnt p with tag := 0x0318, tlen := len }

/-- The invariant says nothing of the pins. -/
theorem inv_anyInputs {s : State} (h : Inv s) (ps : List Inputs) : Inv { s with inputs := ps } :=
  ⟨h.fbCanonical, h.drainBound, h.drainStart, h.countBound, h.countZero, h.readStart, h.frame, h.cause⟩

theorem inv_tag0 (p : Inputs) : Inv (inState .tag 0 p) :=
  inv_anyInputs (s := inState .tag 0 Inputs.quiet) ⟨by decide, by decide, by decide, by decide, by decide, by decide, trivial, by decide, by decide⟩ [p]

theorem inv_tag1 (p : Inputs) : Inv (inState .tag 1 p) :=
  inv_anyInputs (s := inState .tag 1 Inputs.quiet) ⟨by decide, by decide, by decide, by decide, by decide, by decide, trivial, by decide, by decide⟩ [p]

theorem inv_lastPayloadByte (p : Inputs) : Inv (lastPayloadByte p) :=
  inv_anyInputs (s := lastPayloadByte Inputs.quiet) ⟨by decide, by decide, by decide, by decide, by decide, by decide, rfl, by decide,
    by decide⟩ [p]

theorem inv_inBuffer (p : Inputs) : Inv (inBuffer 65535 65534 p) :=
  inv_anyInputs (s := inBuffer 65535 65534 Inputs.quiet) ⟨by decide, by decide, by decide, by decide, by decide, by decide, rfl, by decide,
    by decide⟩ [p]

theorem inv_draining1 (p : Inputs) : Inv (draining 1 p) :=
  inv_anyInputs (s := draining 1 Inputs.quiet) ⟨by decide, by decide, by decide, by decide, by decide, by decide, trivial, .inl rfl⟩ [p]

theorem inv_draining2 (p : Inputs) : Inv (draining 2 p) :=
  inv_anyInputs (s := draining 2 Inputs.quiet) ⟨by decide, by decide, by decide, by decide, by decide, by decide, trivial, .inl rfl⟩ [p]

theorem inv_debugPending (p : Inputs) : Inv (debugPending helloStart p) :=
  inv_anyInputs (s := debugPending helloStart Inputs.quiet) ⟨by decide, by decide, by decide, by decide, by decide, by decide, rfl, by decide,
    by decide⟩ [p]

theorem inv_tracePending (p : Inputs) : Inv (tracePending e2eBuffer p) :=
  inv_anyInputs (s := tracePending e2eBuffer Inputs.quiet) ⟨by decide, by decide, by decide, by decide, by decide, by decide,
    ⟨rfl, by decide⟩, by decide, by decide⟩ [p]

theorem inv_endPending (p : Inputs) : Inv (endPending .ended 0xDEAD p) :=
  inv_anyInputs (s := endPending .ended 0xDEAD Inputs.quiet) ⟨by decide, by decide, by decide, by decide, by decide, by decide, rfl, by decide,
    by decide⟩ [p]

theorem inv_unrecPending (p : Inputs) : Inv (endPending .unrec 0xFFFF p) :=
  inv_anyInputs (s := endPending .unrec 0xFFFF Inputs.quiet) ⟨by decide, by decide, by decide, by decide, by decide, by decide,
    (show isUnrecTag 0xFFFF = true by decide), by decide, by decide⟩ [p]

theorem witness_ResetCycle : (inState .emit 0 resetCycle).pins.rst = true ∧ (inState .tag 1 resetCycle).pins.rst = true := by decide

theorem witness_ControlOutputs : Inv (inState .tag 0 Inputs.quiet) ∧ (inState .tag 0 Inputs.quiet).st ≠ .drain ∧
    (inState .tag 0 Inputs.quiet).st ≠ .term :=
  ⟨inv_tag0 _, by decide, by decide⟩

/-- At the drain's last count, DRAIN_MAX. -/
theorem witness_DrainCount : Inv (draining 2 Inputs.quiet) := inv_draining2 _

/-- A step that begins a read, one that does not, and a reset. -/
theorem witness_ReadStartFlag :
    (∃ t, step (inState .idle 0 startCycle) = .next t ∧ t.rdq = true) ∧ (∃ t, step (inState .idle 0 Inputs.quiet) = .next t ∧ (!t.rdq) = true) ∧
      ∃ t, step (inState .tag 0 resetCycle) = .next t ∧ (!t.rdq) = true :=
  ⟨exists_next (p := fun t => t.rdq) (by decide), exists_next (p := fun t => !t.rdq) (by decide), exists_next (p := fun t => !t.rdq) (by decide)⟩

/-- A step that records a cause, and one that keeps a recorded cause. -/
theorem witness_CauseIsWrittenOnce :
    (Inv (inState .tag 0 closedCycle) ∧ ∃ t, step (inState .tag 0 closedCycle) = .next t ∧ (t.cause != Cause.noCause) = true) ∧
      Inv (draining 1 (byteCycle 9)) ∧ (draining 1 (byteCycle 9)).cause ≠ .noCause ∧ ∃ t, step (draining 1 (byteCycle 9)) = .next t ∧ (t.st == .drain) = true :=
  ⟨⟨inv_tag0 _, exists_next (p := fun t => t.cause != Cause.noCause) (by decide)⟩, inv_draining1 _, by decide,
    exists_next (p := fun t => t.st == .drain) (by decide)⟩

/-- Both ends of FB: the last offset, and the first that does not exist. -/
theorem witness_MemWrite : base.fb.wf = true ∧ (65534 < 65535 ∧ 65535 ≤ 65535) := by decide

/-- A payload byte and a buffer byte that change FB. -/
theorem witness_FrameBufferIsWritten :
    ((lastPayloadByte (byteCycle 7)).fb.wf = true ∧ ∃ t, step (lastPayloadByte (byteCycle 7)) = .next t ∧ (t.fb.read 541 != 0) = true) ∧
      ∃ t, step (inBuffer 65535 65534 (byteCycle 7)) = .next t ∧ (t.fb.read 65534 != 0) = true :=
  ⟨⟨by decide, exists_next (p := fun t => t.fb.read 541 != 0) (by decide)⟩, exists_next (p := fun t => t.fb.read 65534 != 0) (by decide)⟩

/-- Two different frame buffers behind one visible state. -/
theorem witness_UnwrittenBytes :
    Inv (inState .tag 0 (byteCycle 0)) ∧ Memory.wf [(9, 9)] = true ∧
      sameVisible (inState .tag 0 (byteCycle 0)) { inState .tag 0 (byteCycle 0) with fb := [(9, 9)] } ∧
      ∃ t, step (inState .tag 0 (byteCycle 0)) = .next t ∧ (t.cnt == 1) = true :=
  ⟨inv_tag0 _, by decide, ⟨rfl, fun _ h => absurd h (Nat.not_lt_zero _)⟩, exists_next (p := fun t => t.cnt == 1) (by decide)⟩

/-- Tags next to the recognized ones. -/
theorem witness_TagClass : (0x0000 : Half) ≠ 0x0100 ∧ (0x0000 : Half) ≠ 0x0318 ∧ (0x0000 : Half) ≠ 0xDEAD := by decide

theorem witness_DecodeOfEncode : Instr.dbg.wf = true ∧ Instr.trc.wf = true ∧ Instr.endSession.wf = true ∧ (Instr.unrec 0xFFFF).wf = true := by decide

theorem witness_FrameBytes : (Frame.dbg (List.replicate 542 0)).wf = true ∧ (Frame.trc []).wf = true ∧ (Frame.trc e2eBuffer).wf = true ∧
    Frame.endSession.wf = true ∧ (Frame.unrec 0x1803).wf = true :=
  ⟨by rw [Frame.wf, List.length_replicate]; rfl, by decide, by decide, rfl, by decide⟩

/-- Two buffers that differ at offset `need` only. -/
theorem witness_RecordIgnores : trdCheck 12 (fbOf e2eBuffer) = .ok ∧
    ∀ off, off < need (fbOf e2eBuffer) → (fbOf e2eBuffer).read off = (fbOf (e2eBuffer ++ [0x77])).read off := by decide

/-- A completed tag of each class. -/
theorem witness_StepRuns :
    let s (t : Half) (b : Byte) : State := { inState .tag 1 (byteCycle b) with tag := t }
    ((s 0x0000 0x01).st = .tag ∧ (s 0x0000 0x01).cnt = 1 ∧ (s 0x0000 0x01).pins.rst = false ∧ (s 0x0000 0x01).pins.inClosed = false ∧
      (s 0x0000 0x01).pins.inValid = true ∧ decode [loByte (s 0x0000 0x01).tag, (s 0x0000 0x01).pins.inData] = .instr .dbg []) ∧
      decode [loByte (s 0x0018 0x03).tag, (s 0x0018 0x03).pins.inData] = .instr .trc [] ∧
      decode [loByte (s 0x00AD 0xDE).tag, (s 0x00AD 0xDE).pins.inData] = .instr .endSession [] ∧
      decode [loByte (s 0x00FF 0xFF).tag, (s 0x00FF 0xFF).pins.inData] = .instr (.unrec 0xFFFF) [] := by decide

/-- A state of each frame in progress. -/
theorem witness_StepContinues :
    ((lastPayloadByte (byteCycle 7)).pins.rst = false ∧ (lastPayloadByte (byteCycle 7)).st = .dbg) ∧
      ((inState .tlen 0 (byteCycle 7)).st = .tlen ∧ (inBuffer 1 0 (byteCycle 7)).st = .tbuf ∧ (checkPending e2eBuffer Inputs.quiet).st = .dec) ∧
      ((debugPending helloStart readyCycle).st = .emit ∧ (debugPending helloStart readyCycle).evk = .debug) ∧
      (tracePending e2eBuffer readyCycle).evk = .trace ∧ (endPending .ended 0xDEAD readyCycle).evk = .ended ∧
      (endPending .unrec 0xFFFF readyCycle).evk = .unrec ∧ (endPending .unrec 0xFFFF readyCycle).pins.rst = false := by decide

/-- A cycle with an event handshake, and one with a byte handshake. -/
theorem witness_EveryCycleRecords :
    (∃ t, step (endPending .ended 0xDEAD readyCycle) = .next t ∧ (t.events == [.sessionEnded]) = true) ∧
      (endPending .ended 0xDEAD readyCycle).pins.rst = false ∧ ∃ t, step (inState .tag 0 (byteCycle 7)) = .next t ∧ (t.taken == 1) = true :=
  ⟨exists_next (p := fun t => t.events == [.sessionEnded]) (by decide), by decide, exists_next (p := fun t => t.taken == 1) (by decide)⟩

theorem witness_CompletedTag : (inState .tag 0 Inputs.quiet).st = .tag := by decide

theorem witness_StartBegins : ((inState .idle 0 startCycle).st = .idle ∧ (inState .idle 0 startCycle).pins.rst = false) ∧
    (inState .idle 0 closedCycle).pins.start = false ∧ (inState .term 0 startCycle).st ≠ .idle := by decide

theorem witness_FirstTagByte :
    let s := inState .tag 0 (byteCycle 0x18)
    s.st = .tag ∧ s.cnt = 0 ∧ s.pins.rst = false ∧ s.pins.inClosed = false ∧ s.pins.inValid = true ∧ s.pins.inTimeout = false := by decide

theorem witness_Closure :
    let s := inState .tag 0 { byteAndTimeout 7 with inClosed := true }
    s.st.isRead = true ∧ s.pins.rst = false ∧ s.pins.inClosed = true := by decide

/-- The idle retry, a timeout inside a read, and a timeout after a byte of its cycle, in a register read and in a buffer read. -/
theorem witness_TimeoutEnds :
    (let s := inState .tag 0 timeoutCycle
     Inv s ∧ s.st.isRead = true ∧ s.pins.rst = false ∧ s.pins.inClosed = false ∧ s.pins.inTimeout = true ∧ s.pins.inValid = false) ∧
      (let s := inState .tag 1 timeoutCycle
       Inv s ∧ s.st.isRead = true ∧ s.pins.inTimeout = true ∧ s.pins.inValid = false) ∧
      (let s := inState .tag 0 (byteAndTimeout 7)
       Inv s ∧ s.st.isRead = true ∧ s.pins.rst = false ∧ s.pins.inClosed = false ∧ s.pins.inTimeout = true ∧ s.pins.inValid = true ∧
         s.cnt.toNat + 1 ≠ readLen s) ∧
      (let s := inBuffer 65535 65533 (byteAndTimeout 7)
       Inv s ∧ s.st.isRead = true ∧ s.pins.rst = false ∧ s.pins.inClosed = false ∧ s.pins.inTimeout = true ∧ s.pins.inValid = true ∧
         s.cnt.toNat + 1 ≠ readLen s) :=
  ⟨⟨inv_tag0 _, by decide⟩, ⟨inv_tag1 _, by decide⟩, ⟨inv_tag0 _, by decide⟩,
    ⟨by decide, by decide, by decide, by decide, by decide, by decide, rfl, by decide, by decide⟩, by decide⟩

theorem witness_ByteThatCompletes :
    (let s := inState .tag 1 (byteAndTimeout 7)
     s.st.isRead = true ∧ s.pins.rst = false ∧ s.pins.inClosed = false ∧ s.pins.inValid = true ∧ s.cnt.toNat + 1 = readLen s) ∧
      (inBuffer 65535 65534 (byteAndTimeout 7)).cnt.toNat + 1 = readLen (inBuffer 65535 65534 (byteAndTimeout 7)) := by decide

/-- A byte below DRAIN_MAX, a byte at DRAIN_MAX, no byte. -/
theorem witness_Drain :
    (let s := draining 1 (byteCycle 9)
     s.st = .drain ∧ s.dcnt ≤ s.drainMax ∧ s.pins.rst = false ∧ s.dcnt < s.drainMax) ∧
      (let s := draining 2 (byteCycle 9)
       s.st = .drain ∧ s.dcnt ≤ s.drainMax ∧ s.pins.rst = false ∧ s.dcnt = s.drainMax) ∧
      (draining 0 Inputs.quiet).pins.inValid = false := by decide

theorem witness_DrainEnds :
    let s := { draining 0 (byteCycle 9) with inputs := List.replicate 5 (byteCycle 9) }
    s.st = .drain ∧ s.dcnt ≤ s.drainMax ∧ noResetFor (s.drainMax - s.dcnt + 1) s := by
  refine ⟨rfl, by decide, ?_⟩
  unfold noResetFor
  decide

/-- `S_TERM` with `start`, bytes and closure on the pins, and `S_TERM` at a reset. -/
theorem witness_Terminated :
    (let s := { inState .term 0 startCycle with cause := .sessionEnded, inputs := [startCycle, byteCycle 7, closedCycle] }
     s.st = .term ∧ s.rdq = false ∧ noResetFor 3 s) ∧
      (let s := { inState .term 0 resetCycle with cause := .sessionEnded }
       s.st = .term ∧ s.rdq = false ∧ s.pins.rst = true) := by
  refine ⟨⟨rfl, rfl, ?_⟩, by decide⟩
  unfold noResetFor
  decide

theorem witness_AfterTheEnd :
    let s := draining 0 (byteCycle 9)
    s.st = .drain ∧ noResetFor 1 s ∧ ∃ t, runSteps 1 s = .next t := by
  refine ⟨rfl, ?_, ?_⟩
  · unfold noResetFor; decide
  · obtain ⟨t, h, _⟩ := exists_next (s := draining 0 (byteCycle 9)) (p := fun _ => true) (by decide)
    exact ⟨t, runSteps_one h⟩

/-- Different pins with the same honoured ones: in `S_IDLE`, `S_EMIT`, `S_DRAIN` and `S_DEC`. -/
theorem witness_EachState :
    (byteCycle 7).rst = closedCycle.rst ∧ (byteCycle 7).start = closedCycle.start ∧ (byteCycle 7).evReady = closedCycle.evReady ∧
      (startCycle.inClosed = timeoutCycle.inClosed ∧ startCycle.inValid = timeoutCycle.inValid) ∧
      ({ byteCycle 7 with plIdx := 3 }.inData = (byteCycle 7).inData ∧ { byteCycle 7 with plIdx := 3 } ≠ byteCycle 7) := by decide

theorem witness_Waiting :
    (let s := inState .tag 0 Inputs.quiet
     s.pins.rst = false ∧ s.st.isRead = true ∧ s.pins.inClosed = false ∧ s.pins.inValid = false ∧ s.pins.inTimeout = false) ∧
      (debugPending helloStart closedCycle).st = .emit ∧ (debugPending helloStart closedCycle).pins.evReady = false := by decide

/-- The first payload byte, the last, and one with a timeout. -/
theorem witness_DebugPayloadByte :
    (let s := lastPayloadByte (byteCycle 7)
     s.st = .dbg ∧ s.cnt.toNat < 542 ∧ s.pins.inClosed = false ∧ s.pins.inValid = true ∧ s.cnt = 541) ∧
      (let s := inState .dbg 0 (byteAndTimeout 7)
       s.st = .dbg ∧ s.cnt.toNat < 542 ∧ s.pins.inClosed = false ∧ s.pins.inValid = true ∧ s.pins.inTimeout = true) := by decide

theorem witness_TraceLengthBytes :
    (let s := inState .tlen 0 (byteCycle 0x0C)
     s.st = .tlen ∧ s.pins.inClosed = false ∧ s.pins.inValid = true ∧ s.pins.inTimeout = false ∧ s.cnt = 0) ∧
      (let s := inState .tlen 1 (byteCycle 0)
       s.st = .tlen ∧ s.pins.inClosed = false ∧ s.pins.inValid = true ∧ s.pins.inTimeout = false ∧ s.cnt = 1 ∧
         halfOfBytes (loByte s.tlen) s.pins.inData = 0) := by decide

/-- The last byte of the longest buffer, and the first byte of a longer one with a timeout. -/
theorem witness_TraceBufferByte :
    (let s := inBuffer 65535 65534 (byteCycle 7)
     s.st = .tbuf ∧ s.cnt.toNat < s.tlen.toNat ∧ s.pins.inClosed = false ∧ s.pins.inValid = true ∧ s.cnt + 1 = s.tlen) ∧
      (let s := inBuffer 2 0 (byteAndTimeout 7)
       s.st = .tbuf ∧ s.cnt.toNat < s.tlen.toNat ∧ s.pins.inClosed = false ∧ s.pins.inValid = true ∧ s.pins.inTimeout = true) := by decide

/-- Records at the boundary: `L = need`, and one byte short. -/
theorem witness_RecordCheck :
    (let s := checkPending e2eBuffer Inputs.quiet
     s.st = .dec ∧ 8 ≤ s.tlen.toNat ∧ 8 + dataLen s.fb + plen s.fb = s.tlen.toNat) ∧
      (let s := checkPending (e2eBuffer.take 11) Inputs.quiet
       s.st = .dec ∧ 8 + dataLen s.fb + plen s.fb = s.tlen.toNat + 1) := by decide

theorem witness_DebugHandshake :
    let s := debugPending helloStart readyCycle
    s.st = .emit ∧ s.evk = .debug ∧ s.pins.evReady = true := by decide

theorem witness_TraceHandshake :
    let s := tracePending e2eBuffer readyCycle
    s.st = .emit ∧ s.evk = .trace ∧ s.pins.evReady = true ∧ ∃ r, decodeTraceRecord s.tlen.toNat s.fb = some r :=
  ⟨rfl, rfl, rfl, _, rfl⟩

theorem witness_EndingHandshakes :
    (let s := endPending .ended 0xDEAD readyCycle
     s.st = .emit ∧ s.pins.evReady = true ∧ s.evk = .ended) ∧
      (let s := endPending .unrec 0xFFFF readyCycle
       s.st = .emit ∧ s.pins.evReady = true ∧ s.evk = .unrec) := by decide

/-- A next state of each operation. -/
theorem witness_Operations :
    base.fb.wf = true ∧ (∃ t, exec .dbg (lastPayloadByte (byteCycle 7)) = .next t) ∧ (∃ t, exec .trc (inBuffer 65535 65534 (byteCycle 7)) = .next t) ∧
      (∃ t, exec .endSession (endPending .ended 0xDEAD readyCycle) = .next t) ∧
      ∃ t, exec (.unrec 0xFFFF) (endPending .unrec 0xFFFF readyCycle) = .next t :=
  ⟨by decide, ⟨_, rfl⟩, ⟨_, rfl⟩, ⟨_, rfl⟩, _, rfl⟩

theorem witness_DebugOutputs : (debugPending helloStart Inputs.quiet).st = .emit ∧ (debugPending helloStart Inputs.quiet).evk = .debug ∧
    Inv (debugPending helloStart Inputs.quiet) := ⟨rfl, rfl, inv_debugPending _⟩

theorem witness_TraceOutputs : (tracePending e2eBuffer Inputs.quiet).st = .emit ∧ (tracePending e2eBuffer Inputs.quiet).evk = .trace ∧
    Inv (tracePending e2eBuffer Inputs.quiet) := ⟨rfl, rfl, inv_tracePending _⟩

theorem witness_EndingOutputs :
    ((endPending .ended 0xDEAD Inputs.quiet).st = .emit ∧ (endPending .ended 0xDEAD Inputs.quiet).evk = .ended ∧ Inv (endPending .ended 0xDEAD Inputs.quiet)) ∧
      ((endPending .unrec 0xFFFF Inputs.quiet).st = .emit ∧ (endPending .unrec 0xFFFF Inputs.quiet).evk = .unrec ∧
        Inv (endPending .unrec 0xFFFF Inputs.quiet)) ∧
      (inState .tag 0 Inputs.quiet).st ≠ .emit :=
  ⟨⟨rfl, rfl, inv_endPending _⟩, ⟨rfl, rfl, inv_unrecPending _⟩, by decide⟩

theorem witness_PresentedEvent :
    let s := tracePending e2eBuffer closedCycle
    Inv s ∧ s.st = .emit ∧ s.pins.rst = false ∧ s.pins.evReady = false ∧ ∃ t, step s = .next t ∧ (t.st == .emit) = true :=
  ⟨inv_tracePending _, rfl, rfl, rfl, exists_next (p := fun t => t.st == .emit) (by decide)⟩

theorem witness_PayloadViewEnds :
    let s := tracePending e2eBuffer readyCycle
    s.st = .emit ∧ s.pins.rst = false ∧ s.pins.evReady = true ∧ ∃ t, step s = .next t ∧ (t.st == .tag) = true :=
  ⟨rfl, rfl, rfl, exists_next (p := fun t => t.st == .tag) (by decide)⟩

/-- The invariant holds in a state of each event and in a step from it. -/
theorem witness_EveryStepKeeps :
    (Inv (endPending .unrec 0xFFFF readyCycle) ∧ ∃ t, step (endPending .unrec 0xFFFF readyCycle) = .next t ∧ (t.st == .drain) = true) ∧
      Inv (endPending .ended 0xDEAD readyCycle) ∧ Inv (inBuffer 65535 65534 (byteCycle 7)) ∧
      ∃ t, step (inBuffer 65535 65534 (byteCycle 7)) = .next t ∧ (t.st == .dec) = true :=
  ⟨⟨inv_unrecPending _, exists_next (p := fun t => t.st == .drain) (by decide)⟩, inv_endPending _, inv_inBuffer _,
    exists_next (p := fun t => t.st == .dec) (by decide)⟩

theorem witness_InvariantStatesStep : Inv (lastPayloadByte (byteCycle 7)) ∧ Inv (inBuffer 65535 65534 (byteCycle 7)) :=
  ⟨inv_lastPayloadByte _, inv_inBuffer _⟩

theorem witness_DebugFrameRuns :
    let payload : List Byte := List.replicate 542 0
    let s := { inState .tag 0 Inputs.quiet with inputs := (Frame.dbg payload).cycles ++ [Inputs.quiet] }
    s.st = .tag ∧ s.cnt = 0 ∧ s.fb.wf = true ∧ payload.length = 542 ∧ s.inputs = (Frame.dbg payload).cycles ++ [Inputs.quiet] :=
  ⟨rfl, rfl, rfl, List.length_replicate, rfl⟩

theorem witness_TraceFrameRuns :
    let s := { inState .tag 0 Inputs.quiet with inputs := (Frame.trc e2eBuffer).cycles ++ [Inputs.quiet] }
    s.st = .tag ∧ s.cnt = 0 ∧ s.fb.wf = true ∧ e2eBuffer.length < 65536 ∧ (∃ e, traceEventOf e2eBuffer = some e) ∧
      s.inputs = (Frame.trc e2eBuffer).cycles ++ [Inputs.quiet] :=
  ⟨rfl, rfl, rfl, by decide, ⟨_, rfl⟩, rfl⟩

/-- A record one byte short, and the empty buffer. -/
theorem witness_TruncatedTraceFrame :
    let buffer := e2eBuffer.take 11
    let s := { inState .tag 0 Inputs.quiet with inputs := (Frame.trc buffer).bytes.map byteCycle ++ [Inputs.quiet] }
    s.st = .tag ∧ s.cnt = 0 ∧ s.fb.wf = true ∧ buffer.length < 65536 ∧ traceEventOf buffer = none ∧ traceEventOf [] = none ∧
      s.inputs = (Frame.trc buffer).bytes.map byteCycle ++ Inputs.quiet :: [] :=
  ⟨rfl, rfl, rfl, by decide, by decide, by decide, rfl⟩

theorem witness_EndingFrameRuns :
    (let s := { inState .tag 0 Inputs.quiet with inputs := Frame.endSession.cycles ++ [byteCycle 1, byteCycle 2].append [Inputs.quiet] }
     s.st = .tag ∧ s.cnt = 0 ∧ Frame.endSession.wf = true ∧ [(1 : Byte), 2].length ≤ s.drainMax ∧
       s.inputs = Frame.endSession.cycles ++ [(1 : Byte), 2].map byteCycle ++ Inputs.quiet :: []) ∧
      (let s := { inState .tag 0 Inputs.quiet with inputs := (Frame.unrec 0xFFFF).cycles ++ [Inputs.quiet] }
       s.st = .tag ∧ s.cnt = 0 ∧ (Frame.unrec 0xFFFF).wf = true ∧ ([] : List Byte).length ≤ s.drainMax ∧
         s.inputs = (Frame.unrec 0xFFFF).cycles ++ ([] : List Byte).map byteCycle ++ Inputs.quiet :: []) :=
  ⟨⟨rfl, rfl, rfl, by decide, rfl⟩, rfl, rfl, by decide, by decide, rfl⟩

theorem witness_Session :
    let frames := [Frame.trc e2eBuffer, Frame.dbg (List.replicate 542 0), Frame.trc v8009Buffer]
    let s := { inState .tag 0 Inputs.quiet with inputs := frames.flatMap Frame.cycles ++ Frame.endSession.cycles ++ [Inputs.quiet] }
    s.st = .tag ∧ s.cnt = 0 ∧ s.fb.wf = true ∧ (∀ f ∈ frames, f.wf = true ∧ (f.instr = .dbg ∨ f.instr = .trc)) ∧
      (∃ events : List Event, frames.map Frame.event = events.map some) ∧
      s.inputs = frames.flatMap Frame.cycles ++ Frame.endSession.cycles ++ Inputs.quiet :: [] := by
  refine ⟨rfl, rfl, rfl, ?_, ⟨[_, _, _], rfl⟩, rfl⟩
  have hd : (Frame.dbg (List.replicate 542 0)).wf = true := by rw [Frame.wf, List.length_replicate]; rfl
  intro f hf
  simp only [List.mem_cons, List.not_mem_nil, or_false] at hf
  rcases hf with rfl | rfl | rfl
  · exact ⟨by decide, .inr rfl⟩
  · exact ⟨hd, .inl rfl⟩
  · exact ⟨by decide, .inr rfl⟩

end Sys2Proof.Tests
end

section
/-! What a completed tag does by its value, and that every step keeps the invariant `Safety.Inv`. -/

namespace Sys2Proof.Machine

/-- A completed tag, by its value: what the operation of its class does (R39, R64). -/
theorem exec_tagClass_cases {s t : State} {tag : Half} (hs : s.st = .tag)
    (h : exec (tagClass tag) { s with tag := tag, cnt := 0 } = .next t) :
    (tag = Config.tagDebug ∧ t = startRead .dbg { s with tag := tag, cnt := 0 })
      ∨ (tag = Config.tagTrace ∧ t = startRead .tlen { s with tag := tag, cnt := 0 })
      ∨ (tag = Config.tagEnd ∧ t = present .ended { s with tag := tag, cnt := 0 })
      ∨ (isUnrecTag tag = true ∧ t = present .unrec { s with tag := tag, cnt := 0 }) := by
  have hcases := exec_tag (s := { s with tag := tag, cnt := 0 }) hs h
  rcases tagClass_cases tag with ⟨ht, hc⟩ | ⟨ht, hc⟩ | ⟨ht, hc⟩ | ⟨ht, hc⟩ <;> rw [hc] at hcases
  · exact .inl ⟨ht, by simpa using hcases⟩
  · exact .inr (.inl ⟨ht, by simpa using hcases⟩)
  · exact .inr (.inr (.inl ⟨ht, by simpa using hcases⟩))
  · exact .inr (.inr (.inr ⟨ht, by simpa using hcases⟩))

end Sys2Proof.Machine

namespace Sys2Proof.Safety

open Sys2Proof.Machine

/-! ### what the invariant says of one state -/

theorem ne_ended_of_isRead {x : St} (h : x.isRead = true) : x ≠ .drain ∧ x ≠ .term := by
  rcases isRead_cases h with rfl | rfl | rfl | rfl <;> decide

/-- What every state before the end of a session has in common: no cause is recorded and the drain has not begun (R16, R17). -/
structure InSession (s : State) : Prop where
  notDrain : s.st ≠ .drain
  notTerm : s.st ≠ .term
  fbCanonical : s.fb.wf = true
  drainStart : s.dcnt = 0
  cause : s.cause = .noCause

/-- The invariant ties a recorded cause to `S_DRAIN` and `S_TERM`, both ways. -/
theorem Inv.ended_iff {s : State} (h : Inv s) : (s.st = .drain ∨ s.st = .term) ↔ s.cause ≠ .noCause := by
  have hc := h.cause
  unfold causeOk at hc
  cases hs : s.cause <;> simp only [hs] at hc
  case noCause => simp [hc]
  case truncatedFrame | transportClosed => simp [hc]
  case sessionEnded | unrecognizedTag | truncatedRecord => simp [hc.1]

theorem Inv.inSession {s : State} {x : St} (h : Inv s) (hs : s.st = x) (hx : x ≠ .drain ∧ x ≠ .term) : InSession s := by
  subst hs
  exact ⟨hx.1, hx.2, h.fbCanonical, h.drainStart hx.1 hx.2, by_contra fun hc => (h.ended_iff.2 hc).elim hx.1 hx.2⟩

theorem Inv.inSession_of_isRead {s : State} (h : Inv s) (hr : s.st.isRead = true) : InSession s :=
  h.inSession rfl (ne_ended_of_isRead hr)

theorem Inv.tag_of_trace {s : State} (h : Inv s) (hs : s.st = .tlen ∨ s.st = .tbuf ∨ s.st = .dec) : s.tag = Config.tagTrace := by
  rcases hs with hs | hs | hs <;> simpa [frameOk, hs] using h.frame

theorem Inv.tag_of_dbg {s : State} (h : Inv s) (hs : s.st = .dbg) : s.tag = Config.tagDebug := by
  simpa [frameOk, hs] using h.frame

theorem Inv.tag_of_ended {s : State} (h : Inv s) (hs : s.st = .emit) (hk : s.evk = .ended) : s.tag = Config.tagEnd := by
  simpa [frameOk, hs, hk] using h.frame

theorem Inv.tag_of_unrec {s : State} (h : Inv s) (hs : s.st = .emit) (hk : s.evk = .unrec) : isUnrecTag s.tag = true := by
  simpa [frameOk, hs, hk] using h.frame

/-! ### when a state meets the invariant: in a read, in session outside a read, and after the session's end -/

theorem inv_of_inSession {t : State} (h : InSession t) (hn : t.st.isRead = true → t.cnt.toNat < readLen t)
    (hz : t.st.isRead = false → t.cnt = 0) (hq : t.rdq = true → t.st.isRead = true ∧ t.cnt = 0) (hf : frameOk t) : Inv t where
  fbCanonical := h.fbCanonical
  drainBound := by rw [h.drainStart]; exact Nat.zero_le _
  drainStart _ _ := h.drainStart
  countBound := hn
  countZero := hz
  readStart := hq
  frame := hf
  cause := by simp [causeOk, h.cause, h.notDrain, h.notTerm]

theorem inv_of_isRead {t : State} (h : InSession t) (hr : t.st.isRead = true) (hn : t.cnt.toNat < readLen t)
    (hq : t.rdq = true → t.cnt = 0) (hf : frameOk t) : Inv t :=
  inv_of_inSession h (fun _ => hn) (by simp [hr]) (fun hq' => ⟨hr, hq hq'⟩) hf

theorem inv_of_not_isRead {t : State} (h : InSession t) (hr : t.st.isRead = false) (hn : t.cnt = 0) (hq : t.rdq = false) (hf : frameOk t) :
    Inv t :=
  inv_of_inSession h (by simp [hr]) (fun _ => hn) (by simp [hq]) hf

theorem inv_of_ended {t : State} (hs : t.st = .drain ∨ t.st = .term) (hfb : t.fb.wf = true) (hd : t.dcnt ≤ t.drainMax) (hn : t.cnt = 0)
    (hq : t.rdq = false) (hc : causeOk t) : Inv t where
  fbCanonical := hfb
  drainBound := hd
  drainStart hd' ht' := (hs.elim hd' ht').elim
  countBound hr := by rcases hs with hs | hs <;> simp [hs, St.isRead] at hr
  countZero _ := hn
  readStart := by simp [hq]
  frame := by rcases hs with hs | hs <;> simp [frameOk, hs]
  cause := hc

/-! ### the operations of a cycle -/

theorem inv_resetRegisters {s : State} (h : s.fb.wf = true) : Inv (resetRegisters s) :=
  inv_of_not_isRead ⟨nofun, nofun, h, rfl, rfl⟩ rfl rfl rfl ⟨rfl, rfl, rfl⟩

theorem inv_beginCycle {s : State} (h : Inv s) : Inv (beginCycle s) :=
  { h with readStart := nofun }

theorem inv_endCycle {s : State} (h : Inv s) : Inv (endCycle s) :=
  { h with }

/-- Beginning a read that is not empty, with the tag that belongs to it (R57). -/
theorem inv_startRead {x : St} {s : State} (h : InSession s) (hx : x.isRead = true) (hn : 0 < readLen (startRead x s))
    (hf : frameOk (startRead x s)) : Inv (startRead x s) := by
  have hi : InSession (startRead x s) :=
    { h with
      notDrain := (ne_ended_of_isRead hx).1
      notTerm := (ne_ended_of_isRead hx).2 }
  exact inv_of_isRead hi hx hn (fun _ => rfl) hf

theorem inv_startRead_tag {s : State} (h : InSession s) : Inv (startRead .tag s) :=
  inv_startRead h rfl Nat.zero_lt_two trivial

theorem inv_present {k : EventKind} {s : State} (h : InSession s) (hn : s.cnt = 0) (hq : s.rdq = false) (hf : frameOk (present k s)) :
    Inv (present k s) :=
  inv_of_not_isRead { h with notDrain := nofun, notTerm := nofun } rfl hn hq hf

/-- Going to the record check of a trace frame (R64). -/
theorem inv_toDec {s : State} (h : InSession s) (hn : s.cnt = 0) (hq : s.rdq = false) (ht : s.tag = Config.tagTrace) : Inv { s with st := .dec } :=
  inv_of_not_isRead { h with notDrain := nofun, notTerm := nofun } rfl hn hq ht

/-- Raising an error (R79): its cause says something of the frame for a truncated record only. -/
theorem inv_raiseError {e : Error} {s : State} (hfb : s.fb.wf = true) (hq : s.rdq = false)
    (hc : e = .truncatedRecord → s.tag = Config.tagTrace ∧ trdCheck s.tlen.toNat s.fb = .truncatedRecord) : Inv (raiseError e s) := by
  refine inv_of_ended (.inl rfl) hfb (Nat.zero_le _) rfl hq ?_
  cases e with
  | truncatedFrame => exact .inl rfl
  | transportClosed => exact .inl rfl
  | truncatedRecord => exact ⟨.inl rfl, hc rfl⟩

theorem inv_endSession {c : Cause} {s : State} (h : Inv s) (hr : s.st.isRead = false) (hq : s.rdq = false) (hc : causeOk (endSession c s)) :
    Inv (endSession c s) :=
  inv_of_ended (.inl rfl) h.fbCanonical (Nat.zero_le _) (h.countZero hr) hq hc

/-- The drain may stop at any count (R67). -/
theorem inv_drainStop {s : State} (h : Inv s) (hs : s.st = .drain) (hq : s.rdq = false) : Inv { s with st := .term } := by
  refine inv_of_ended (.inr rfl) h.fbCanonical h.drainBound (h.countZero (by simp [hs, St.isRead])) hq ?_
  have hc := h.cause
  unfold causeOk at hc ⊢
  cases hk : s.cause <;> simp only [hk] at hc
  case noCause => exact absurd hs hc.1
  case truncatedFrame | transportClosed => exact .inr rfl
  case sessionEnded | unrecognizedTag | truncatedRecord => exact ⟨.inr rfl, hc.2⟩

/-- The drain counts a byte below its bound only (R67). -/
theorem inv_drainByte {s : State} (h : Inv s) (hs : s.st = .drain) (hq : s.rdq = false) (hd : s.dcnt ≠ s.drainMax) :
    Inv { s with dcnt := s.dcnt + 1 } :=
  inv_of_ended (.inl hs) h.fbCanonical (Nat.lt_of_le_of_ne h.drainBound hd) (h.countZero (by simp [hs, St.isRead])) hq h.cause

/-! ### storing a byte -/

/-- A stored byte keeps the frame buffer canonical. -/
theorem wf_of_store {c : Nat} {b : Byte} {s u : State} (hfb : s.fb.wf = true) (hr : s.st.isRead = true) (hu : store c b s = .next u) :
    u.fb.wf = true := by
  rcases store_eq_next hr hu with ⟨_, rfl⟩ | ⟨_, rfl⟩ | ⟨_, hc, rfl⟩
  · exact hfb
  · exact hfb
  · exact Memory.wf_write hfb hc

theorem inSession_of_store {c : Nat} {b : Byte} {s u : State} (h : InSession s) (hr : s.st.isRead = true) (hu : store c b s = .next u) :
    InSession u := by
  have hfb := wf_of_store h.fbCanonical hr hu
  rw [store_frame hu]
  exact { h with fbCanonical := hfb }

theorem readLen_of_store {c : Nat} {b : Byte} {s u : State} (hr : s.st.isRead = true) (hu : store c b s = .next u) : readLen u = readLen s := by
  rcases store_eq_next hr hu with ⟨hs, rfl⟩ | ⟨hs, rfl⟩ | ⟨_, _, rfl⟩
  · simp [readLen, hs]
  · simp [readLen, hs]
  · rfl

/-- A byte of a tag changes a tag that nothing yet relies on; any other byte leaves the tag alone. -/
theorem frameOk_of_store {c : Nat} {b : Byte} {s u : State} (hf : frameOk s) (hr : s.st.isRead = true) (hu : store c b s = .next u) : frameOk u := by
  rcases store_eq_next hr hu with ⟨hs, rfl⟩ | ⟨hs, rfl⟩ | ⟨hs | hs, _, rfl⟩
  · simp [frameOk, hs]
  all_goals simpa [frameOk, hs] using hf

/-- A stored byte that does not complete the read is counted (R61). -/
theorem inv_byteMore {b : Byte} {s u : State} (h : Inv s) (hr : s.st.isRead = true) (hq : s.rdq = false) (hn : s.cnt.toNat + 1 ≠ readLen s)
    (hu : store s.cnt.toNat b s = .next u) : Inv { u with cnt := BitVec.ofNat 16 (s.cnt.toNat + 1) } := by
  have hi := inSession_of_store (h.inSession_of_isRead hr) hr hu
  have hlt : s.cnt.toNat + 1 < readLen u := by
    have := h.countBound hr
    rw [readLen_of_store hr hu]
    omega
  have hst : u.st.isRead = true := by rw [store_frame hu]; exact hr
  have hrdq : u.rdq = false := by rw [store_frame hu]; exact hq
  have hf : frameOk u := frameOk_of_store h.frame hr hu
  refine inv_of_isRead { hi with } hst ?_ (by simp [hrdq]) hf
  exact lt_of_le_of_lt (by rw [BitVec.toNat_ofNat]; exact Nat.mod_le _ _) hlt

/-! ### the step -/

/-- Every transition of a cycle keeps the invariant; `rdq` is 0 since the cycle began (R18). -/
theorem inv_of_cycleStep {s t : State} (h : Inv s) (hq : s.rdq = false) (hstep : CycleStep s t) : Inv t := by
  cases hstep with
  | idleWait | readWait | emitWait | term => exact h
  | closed | timeout => exact inv_raiseError h.fbCanonical hq nofun
  | byteMore hr hc hv ht hn u hu => exact inv_byteMore h hr hq hn hu
  | byteTimeout hr hc hv ht hn u hu =>
    exact inv_raiseError (wf_of_store h.fbCanonical hr hu) (by rw [store_frame hu]; exact hq) nofun
  | tagDone hs hc hv hn t ht =>
    have hi : InSession { s with tag := setHiByte s.tag s.pins.inData, cnt := 0 } :=
      { h.inSession hs (by decide) with }
    rcases exec_tagClass_cases hs ht with ⟨htag, rfl⟩ | ⟨htag, rfl⟩ | ⟨htag, rfl⟩ | ⟨htag, rfl⟩
    · exact inv_startRead hi rfl (Nat.zero_lt_succ 541) htag
    · exact inv_startRead hi rfl Nat.zero_lt_two htag
    · exact inv_present hi rfl hq htag
    · exact inv_present hi rfl hq htag
  | dbgDone hs hc hv hn =>
    have hfb : (s.fb.write s.cnt.toNat s.pins.inData).wf = true := Memory.wf_write h.fbCanonical (by simp only [Config.fbSize]; omega)
    exact inv_present { h.inSession hs (by decide) with fbCanonical := hfb } rfl hq (h.tag_of_dbg hs)
  | tlenDone hs hc hv hn =>
    have hi : InSession { s with tlen := setHiByte s.tlen s.pins.inData, cnt := 0 } := { h.inSession hs (by decide) with }
    rcases lengthComplete_cases { s with tlen := setHiByte s.tlen s.pins.inData, cnt := 0 } with ⟨h0, heq⟩ | ⟨h0, heq⟩ <;> rw [heq]
    · exact inv_toDec hi rfl hq (h.tag_of_trace (.inl hs))
    · exact inv_startRead hi rfl (Nat.pos_of_ne_zero fun hz => h0 (cnt_eq_zero hz)) (h.tag_of_trace (.inl hs))
  | tbufDone hs hc hv hn =>
    have hfb : (s.fb.write s.cnt.toNat s.pins.inData).wf = true := by
      have := s.tlen.isLt
      exact Memory.wf_write h.fbCanonical (by simp only [Config.fbSize]; omega)
    exact inv_toDec (s := { s with fb := s.fb.write s.cnt.toNat s.pins.inData, cnt := 0 })
      { h.inSession hs (by decide) with fbCanonical := hfb } rfl hq (h.tag_of_trace (.inr (.inl hs)))
  | decOk hs hok =>
    exact inv_present (h.inSession hs (by decide)) (h.countZero (by simp [hs, St.isRead])) hq
      ⟨h.tag_of_trace (.inr (.inr hs)), hok⟩
  | decTruncated hs htr => exact inv_raiseError h.fbCanonical hq fun _ => ⟨h.tag_of_trace (.inr (.inr hs)), htr⟩
  | idleStart hs | idleTimeout hs | emitFrame hs => exact inv_startRead_tag (h.inSession hs (by decide))
  | emitEnded hs hp hk => exact inv_endSession h (by simp [hs, St.isRead]) hq ⟨.inl rfl, h.tag_of_ended hs hk, hk⟩
  | emitUnrec hs hp hk => exact inv_endSession h (by simp [hs, St.isRead]) hq ⟨.inl rfl, h.tag_of_unrec hs hk, hk⟩
  | drainStop hs hp => exact inv_drainStop h hs hq
  | drainByte hs hp => exact inv_drainByte h hs hq fun hd => hp (.inr (.inr hd))

/-- Settles O54: a reset puts the registers in order, and every other transition keeps the invariant. -/
theorem everyStepKeepsTheInvariant : Obligations.EveryStepKeepsTheInvariant := by
  intro s t h hstep
  rcases step_cases hstep with ⟨_, rfl⟩ | ⟨_, u, hu, rfl⟩
  · exact inv_endCycle (inv_resetRegisters h.fbCanonical)
  · exact inv_endCycle (inv_of_cycleStep (inv_beginCycle h) rfl hu)

end Sys2Proof.Safety
end

section
/-! The read-start flag and the cause over one step: which transitions write them (R18, R16, R81). -/

namespace Sys2Proof.Safety

open Sys2Proof.Machine

/-! ### the rules that begin a read, state by state -/

theorem beginsRead_idle {s : State} (hs : s.st = .idle) : beginsRead s ↔ s.pins.start = true := by simp [beginsRead, hs]

theorem beginsRead_emit {s : State} (hs : s.st = .emit) : beginsRead s ↔ s.pins.evReady = true ∧ (s.evk = .debug ∨ s.evk = .trace) := by
  simp [beginsRead, hs]

theorem beginsRead_idleTimeout {s : State} (hs : s.st = .tag) (hc : s.pins.inClosed = false) (hv : s.pins.inValid = false)
    (ht : s.pins.inTimeout = true) (hn : s.cnt = 0) : beginsRead s := by
  simp [beginsRead, hs, hc, hv, ht, hn]

/-- The byte that completes a tag begins a read exactly when the tag's class has more bytes (R64). -/
theorem beginsRead_tagDone {s : State} (hs : s.st = .tag) (hc : s.pins.inClosed = false) (hv : s.pins.inValid = true) (hn : s.cnt = 1) :
    beginsRead s ↔ setHiByte s.tag s.pins.inData = Config.tagDebug ∨ setHiByte s.tag s.pins.inData = Config.tagTrace := by
  simp [beginsRead, hs, hc, hv, hn]

/-- The byte that completes a trace length begins a read exactly when the length is not 0 (R64). -/
theorem beginsRead_tlenDone {s : State} (hs : s.st = .tlen) (hc : s.pins.inClosed = false) (hv : s.pins.inValid = true) (hn : s.cnt = 1) :
    beginsRead s ↔ setHiByte s.tlen s.pins.inData ≠ 0 := by
  simp [beginsRead, hs, hc, hv, hn]

theorem not_beginsRead_of_st {s : State} (hs : s.st = .dbg ∨ s.st = .tbuf ∨ s.st = .dec ∨ s.st = .drain ∨ s.st = .term) : ¬ beginsRead s := by
  rcases hs with hs | hs | hs | hs | hs <;> simp [beginsRead, hs]

/-- A closure ends the session, so it begins no read (R60, R79). -/
theorem not_beginsRead_of_closed {s : State} (hr : s.st.isRead = true) (hc : s.pins.inClosed = true) : ¬ beginsRead s := by
  rcases isRead_cases hr with hs | hs | hs | hs <;> simp [beginsRead, hs, hc]

/-- Without a byte only an idle timeout begins a read (R62). -/
theorem not_beginsRead_of_no_byte {s : State} (hr : s.st.isRead = true) (hv : s.pins.inValid = false)
    (hn : s.pins.inTimeout = true → ¬ (s.st = .tag ∧ s.cnt = 0)) : ¬ beginsRead s := by
  rcases isRead_cases hr with hs | hs | hs | hs
  case inl => simpa [beginsRead, hs, hv] using fun _ ht hn0 => hn ht ⟨hs, hn0⟩
  all_goals simp [beginsRead, hs, hv]

theorem cnt_ne_one {c : Half} (h : c.toNat + 1 ≠ 2) : c ≠ 1#16 := by
  rintro rfl
  exact h rfl

/-- A byte that does not complete its read begins none: in the tag and length reads the last byte is byte 1. -/
theorem not_beginsRead_of_short {s : State} (hr : s.st.isRead = true) (hv : s.pins.inValid = true) (hn : s.cnt.toNat + 1 ≠ readLen s) :
    ¬ beginsRead s := by
  rcases isRead_cases hr with hs | hs | hs | hs
  case inr.inl | inr.inr.inr => simp [beginsRead, hs]
  case inl =>
    rw [readLen_tag hs] at hn
    simp [beginsRead, hs, hv, cnt_ne_one hn]
  case inr.inr.inl =>
    rw [readLen_tlen hs] at hn
    simp [beginsRead, hs, cnt_ne_one hn]

/-- Beginning the cycle changes nothing that the rules look at. -/
@[simp] theorem beginsRead_beginCycle (s : State) : beginsRead (beginCycle s) ↔ beginsRead s := Iff.rfl

/-- A transition of a cycle, which starts with `rdq` 0, sets it exactly when a rule begins a read. -/
theorem cycleStep_rdq_iff {s t : State} (hq : s.rdq = false) (hstep : CycleStep s t) : t.rdq = true ↔ beginsRead s := by
  have hunset {u : State} (hu : u.rdq = false) (hb : ¬ beginsRead s) : u.rdq = true ↔ beginsRead s := by simp [hu, hb]
  have hset {x : St} {u : State} (hb : beginsRead s) : (startRead x u).rdq = true ↔ beginsRead s := by simp [hb]
  cases hstep with
  | idleWait hs hp => exact hunset hq (by simp [beginsRead_idle hs, hp])
  | idleStart hs hp => exact hset ((beginsRead_idle hs).2 hp)
  | closed hr hc => exact hunset hq (not_beginsRead_of_closed hr hc)
  | readWait hr hc hv ht => exact hunset hq (not_beginsRead_of_no_byte hr hv (by simp [ht]))
  | idleTimeout hs hn hc hv ht => exact hset (beginsRead_idleTimeout hs hc hv ht hn)
  | timeout hr hn hc hv ht => exact hunset hq (not_beginsRead_of_no_byte hr hv fun _ => hn)
  | byteMore hr hc hv ht hn u hu | byteTimeout hr hc hv ht hn u hu =>
    exact hunset (by rw [store_frame hu]; exact hq) (not_beginsRead_of_short hr hv hn)
  | tagDone hs hc hv hn t ht =>
    have hb := beginsRead_tagDone hs hc hv hn
    rcases exec_tagClass_cases hs ht with ⟨htag, rfl⟩ | ⟨htag, rfl⟩ | ⟨htag, rfl⟩ | ⟨htag, rfl⟩
    · exact hset (hb.2 (.inl htag))
    · exact hset (hb.2 (.inr htag))
    · exact hunset hq (hb.not.2 (by rw [htag]; decide))
    · obtain ⟨hd, htr, _⟩ := (isUnrecTag_iff _).1 htag
      exact hunset hq (hb.not.2 (not_or.2 ⟨hd, htr⟩))
  | dbgDone hs | tbufDone hs | decOk hs | decTruncated hs | drainStop hs | drainByte hs | term hs =>
    exact hunset hq (not_beginsRead_of_st (by simp [hs]))
  | tlenDone hs hc hv hn =>
    have hb := beginsRead_tlenDone hs hc hv hn
    rcases lengthComplete_cases { s with tlen := setHiByte s.tlen s.pins.inData, cnt := 0 } with ⟨h0, heq⟩ | ⟨h0, heq⟩ <;> rw [heq]
    · exact hunset hq (hb.not.2 (not_not.2 h0))
    · exact hset (hb.2 h0)
  | emitWait hs hp => exact hunset hq (by simp [beginsRead_emit hs, hp])
  | emitFrame hs hp hk => exact hset ((beginsRead_emit hs).2 ⟨hp, hk⟩)
  | emitEnded hs hp hk | emitUnrec hs hp hk => exact hunset hq (by simp [beginsRead_emit hs, hk])

/-- Settles O6: a reset clears `rdq`, and any other cycle clears it first and sets it with the rules that begin a read. -/
theorem readStartFlagLastsOneCycle : Obligations.ReadStartFlagLastsOneCycle := by
  intro s t hstep
  rcases step_cases hstep with ⟨hr, rfl⟩ | ⟨hr, u, hu, rfl⟩
  · simp [hr]
  · simp [hr, cycleStep_rdq_iff (beginCycle_rdq s) hu]

/-! ### the cause -/

/-- A transition keeps the cause or, from a state before the drain, goes to the drain. -/
theorem cycleStep_cause_eq_or_drain {s t : State} (hstep : CycleStep s t) :
    t.cause = s.cause ∨ (s.st ≠ .drain ∧ s.st ≠ .term ∧ t.st = .drain) := by
  cases hstep with
  | closed hr | timeout hr | byteTimeout hr => exact .inr ⟨(ne_ended_of_isRead hr).1, (ne_ended_of_isRead hr).2, rfl⟩
  | decTruncated hs | emitEnded hs | emitUnrec hs => exact .inr ⟨by simp [hs], by simp [hs], rfl⟩
  | byteMore hr hc hv ht hn u hu => exact .inl (by rw [store_frame hu])
  | tagDone hs hc hv hn t ht =>
    rcases exec_tagClass_cases hs ht with ⟨_, rfl⟩ | ⟨_, rfl⟩ | ⟨_, rfl⟩ | ⟨_, rfl⟩ <;> exact .inl rfl
  | tlenDone =>
    rcases lengthComplete_cases { s with tlen := setHiByte s.tlen s.pins.inData, cnt := 0 } with ⟨_, heq⟩ | ⟨_, heq⟩ <;> rw [heq] <;> exact .inl rfl
  | _ => exact .inl rfl

/-- Settles O7: by the invariant a recorded cause means the session has ended, and from there no transition writes the cause. -/
theorem causeIsWrittenOnceOnTheWayToTheDrain : Obligations.CauseIsWrittenOnceOnTheWayToTheDrain := by
  intro s t h hr hstep
  rcases step_cases hstep with ⟨hr', _⟩ | ⟨_, u, hu, rfl⟩
  · rw [hr] at hr'; cases hr'
  have hcause := cycleStep_cause_eq_or_drain hu
  exact ⟨fun hk => hcause.resolve_right fun ⟨hd, ht, _⟩ => (h.ended_iff.2 hk).elim hd ht, fun hne => hcause.resolve_left hne⟩

/-! ### the drain count -/

/-- Settles O5: `ceil(log2(DRAIN_MAX + 1))` bits hold every number up to DRAIN_MAX. -/
theorem drainCountFitsItsWidth : Obligations.DrainCountFitsItsWidth := by
  intro s h
  calc s.dcnt < s.drainMax + 1 := Nat.lt_succ_of_le h.drainBound
    _ ≤ 2 ^ Nat.clog 2 (s.drainMax + 1) := Nat.le_pow_clog Nat.one_lt_two _
    _ ≤ 2 ^ Config.dcntWidth s.drainMax := Nat.pow_le_pow_right Nat.two_pos (Nat.le_max_right _ _)

end Sys2Proof.Safety
end

section
/-! The output pins as functions of the registers (R10, R19 to R22). -/

namespace Sys2Proof.Machine

/-! ### the payload index -/

/-- An event port with the four payload outputs at 0: what `pl_idx` cannot change. -/
def EventPort.withoutPayload (port : EventPort) : EventPort :=
  { port with plByte := 0, plParbyte := 0, plPbit := false, plPok := false }

/-- Only the payload outputs of the port depend on `pl_idx` (R73, R75). -/
theorem eventPort_withoutPayload (s : State) (i j : Half) : (eventPort s i).withoutPayload = (eventPort s j).withoutPayload := by
  unfold eventPort
  split
  · cases s.evk <;> simp [EventPort.withoutPayload, debugPort, tracePort]
  · rfl

/-- Settles O3: `outputs` takes nothing from the pins and the observation, and `pl_idx` reaches the event port only. -/
theorem outputsIgnoreEveryInputButPayloadIndex : Obligations.OutputsIgnoreEveryInputButPayloadIndex := by
  intro s inputs events taken i j
  have hport := eventPort_withoutPayload s i j
  exact ⟨rfl, congrArg (fun port => { outputs s i with port := port }) hport⟩

/-! ### the control outputs -/

theorem isRead_iff (x : St) : x.isRead = true ↔ x = .tag ∨ x = .dbg ∨ x = .tlen ∨ x = .tbuf :=
  ⟨isRead_cases, by rintro (rfl | rfl | rfl | rfl) <;> rfl⟩

theorem inReady_iff (s : State) :
    inReady s = true ↔ s.st = .tag ∨ s.st = .dbg ∨ s.st = .tlen ∨ s.st = .tbuf ∨ (s.st = .drain ∧ s.dcnt < s.drainMax) := by
  simp [inReady, isRead_iff, or_assoc]

/-- The length pin shows `n(st)` (R20, R59). -/
theorem ofNat_readLen (s : State) :
    BitVec.ofNat 16 (readLen s)
      = if s.st = .tag then 2 else if s.st = .dbg then 542 else if s.st = .tlen then 2 else if s.st = .tbuf then s.tlen else 0 := by
  cases hs : s.st <;> simp [readLen, hs, Config.tagLen, Config.dbgPayloadLen]

theorem doneFlag_iff (s : State) : doneFlag s = true ↔ s.st = .term := by simp [doneFlag]

/-! ### the fields of the status byte (R22) -/

theorem statusByte_state (s : State) : (statusByte s).extractLsb' 0 4 = s.st.code :=
  (BitVec.extractLsb'_append_eq_of_add_le (by decide)).trans BitVec.extractLsb'_append_eq_right

theorem statusByte_done (s : State) : (statusByte s).getLsbD 4 = doneFlag s := by
  simp only [statusByte, BitVec.getLsbD_append]
  simp

theorem statusByte_cause (s : State) : (statusByte s).extractLsb' 5 3 = s.cause.code := BitVec.extractLsb'_append_eq_left

/-- Settles O4, one lemma a pin; the state and cause codes are those of `St.code` and `Cause.code`. -/
theorem controlOutputsFollowTheRegisters : Obligations.ControlOutputsFollowTheRegisters := by
  intro s plIdx
  refine ⟨inReady_iff s, rfl, ofNat_readLen s, doneFlag_iff s, ?_, fun h hd ht => ?_, ?_, statusByte_done s, statusByte_cause s, rfl⟩
  · show s.cause.code = _
    cases s.cause <;> rfl
  · have hc : s.cause = .noCause := (h.inSession rfl ⟨hd, ht⟩).cause
    show s.cause.code = 0
    rw [hc]
    rfl
  · refine (statusByte_state s).trans ?_
    cases s.st <;> rfl

end Sys2Proof.Machine
end

section
/-! The converse of `cycleBody_cases`: a transition whose state and pins are as its constructor says is the one the cycle makes. -/

namespace Sys2Proof.Machine

/-! ### the case of `Step()`, state by state (R56) -/

theorem cycleBody_tag {s : State} (hs : s.st = .tag) : cycleBody s = readCycle (fun t => exec (tagClass t.tag) t) s := by
  simp only [cycleBody, hs, tagCycle]

theorem cycleBody_dbg {s : State} (hs : s.st = .dbg) : cycleBody s = readCycle (fun t => .next (present .debug t)) s := by
  simp only [cycleBody, hs, exec, execDbg]

theorem cycleBody_tlen {s : State} (hs : s.st = .tlen) : cycleBody s = readCycle (fun t => .next (lengthComplete t)) s := by
  simp only [cycleBody, hs, exec, execTrc]

theorem cycleBody_tbuf {s : State} (hs : s.st = .tbuf) : cycleBody s = readCycle (fun t => .next { t with st := .dec }) s := by
  simp only [cycleBody, hs, exec, execTrc]

/-- In every read state the cycle is a read cycle; the states differ in what completes the read. -/
theorem cycleBody_read {s : State} (hr : s.st.isRead = true) : ∃ complete, cycleBody s = readCycle complete s := by
  rcases isRead_cases hr with hs | hs | hs | hs
  · exact ⟨_, cycleBody_tag hs⟩
  · exact ⟨_, cycleBody_dbg hs⟩
  · exact ⟨_, cycleBody_tlen hs⟩
  · exact ⟨_, cycleBody_tbuf hs⟩

theorem cycleBody_idle {s : State} (hs : s.st = .idle) : cycleBody s = .next (idleCycle s) := by simp only [cycleBody, hs]

theorem cycleBody_dec {s : State} (hs : s.st = .dec) : cycleBody s = .next (decCycle s) := by simp only [cycleBody, hs, exec, execTrc]

theorem cycleBody_drain {s : State} (hs : s.st = .drain) : cycleBody s = .next (drainCycle s) := by simp only [cycleBody, hs]

theorem cycleBody_term {s : State} (hs : s.st = .term) : cycleBody s = .next s := by simp only [cycleBody, hs]

/-- What the handshake of the pending event does (R66). -/
def afterHandshake (s : State) : State → State :=
  match s.evk with
  | .debug => startRead .tag
  | .trace => startRead .tag
  | .ended => endSession .sessionEnded
  | .unrec => endSession .unrecognizedTag

theorem cycleBody_emit {s : State} (hs : s.st = .emit) : cycleBody s = .next (awaitHandshake (afterHandshake s) s) := by
  cases hk : s.evk <;>
    simp only [cycleBody, hs, pendingInstr, hk, exec, execDbg, execTrc, execEndSession, execUnrec, afterHandshake]

/-! ### a byte of a read -/

/-- A byte that completes the read: once it is stored, what the completed read does runs with `cnt` 0 (R61, R64). -/
theorem readCycle_done {s u : State} {n : Nat} (complete : State → Result) (hc : s.pins.inClosed = false) (hv : s.pins.inValid = true)
    (hl : readLen s = n) (hn : s.cnt.toNat + 1 = n) (hu : store s.cnt.toNat s.pins.inData s = .next u) :
    readCycle complete s = complete { u with cnt := 0 } := by
  rw [readCycle_byte complete hc hv, hu, andThen_next, if_pos (hn.trans hl.symm)]

/-- A byte that does not complete the read is stored and counted (R61). -/
theorem readCycle_short {s u : State} (complete : State → Result) (hc : s.pins.inClosed = false) (hv : s.pins.inValid = true)
    (hn : s.cnt.toNat + 1 ≠ readLen s) (hu : store s.cnt.toNat s.pins.inData s = .next u) :
    readCycle complete s = .next (countByte (s.cnt.toNat + 1) u) := by
  rw [readCycle_byte complete hc hv, hu, andThen_next, if_neg hn]

theorem store_body {c : Nat} {s : State} (hs : s.st = .dbg ∨ s.st = .tbuf) (b : Byte) (hc : c < Config.fbSize) :
    store c b s = .next { s with fb := s.fb.write c b } := by
  rcases hs with hs | hs
  · rw [store_dbg hs, memWrite_of_lt hc]
  · rw [store_tbuf hs, memWrite_of_lt hc]

/-! ### the converse -/

/-- A transition is what the cycle does. -/
theorem cycleBody_of_cycleStep {s t : State} (h : CycleStep s t) : cycleBody s = .next t := by
  cases h with
  | idleWait hs h => rw [cycleBody_idle hs, idleCycle_wait h]
  | idleStart hs h => rw [cycleBody_idle hs, idleCycle_start h]
  | closed hr h =>
    obtain ⟨complete, hb⟩ := cycleBody_read hr
    rw [hb, readCycle_closed complete h]
  | readWait hr hc hv ht =>
    obtain ⟨complete, hb⟩ := cycleBody_read hr
    rw [hb, readCycle_wait complete hc hv ht]
  | idleTimeout hs hn hc hv ht =>
    have hn0 : s.cnt.toNat = 0 := by simp [hn]
    rw [cycleBody_tag hs, readCycle_timeout _ hc hv ht, hn0, timeoutItem_retry hs]
  | timeout hr hn hc hv ht =>
    obtain ⟨complete, hb⟩ := cycleBody_read hr
    rw [hb, readCycle_timeout complete hc hv ht, timeoutItem_raise fun h0 => hn ⟨h0.1, cnt_eq_zero h0.2⟩]
  | byteMore hr hc hv ht hn u hu =>
    obtain ⟨complete, hb⟩ := cycleBody_read hr
    have hp : u.pins.inTimeout = false := by rw [store_frame hu]; exact ht
    rw [hb, readCycle_short complete hc hv hn hu, countByte_more hp]
  | byteTimeout hr hc hv ht hn u hu =>
    obtain ⟨complete, hb⟩ := cycleBody_read hr
    have hp : u.pins.inTimeout = true := by rw [store_frame hu]; exact ht
    rw [hb, readCycle_short complete hc hv hn hu, countByte_timeout hp]
  | tagDone hs hc hv hn t ht =>
    have hn1 : s.cnt.toNat = 1 := by simp [hn]
    rw [cycleBody_tag hs, readCycle_done _ hc hv (readLen_tag hs) (by omega) (store_tag hs _ _), hn1]
    exact ht
  | dbgDone hs hc hv hn =>
    rw [cycleBody_dbg hs, readCycle_done _ hc hv (readLen_dbg hs) hn (store_body (.inl hs) _ (by simp only [Config.fbSize]; omega))]
  | tlenDone hs hc hv hn =>
    have hn1 : s.cnt.toNat = 1 := by simp [hn]
    rw [cycleBody_tlen hs, readCycle_done _ hc hv (readLen_tlen hs) (by omega) (store_tlen hs _ _), hn1]
    rfl
  | tbufDone hs hc hv hn =>
    have hlt := s.tlen.isLt
    rw [cycleBody_tbuf hs, readCycle_done _ hc hv (readLen_tbuf hs) hn (store_body (.inr hs) _ (by simp only [Config.fbSize]; omega))]
  | decOk hs h | decTruncated hs h => rw [cycleBody_dec hs, decCycle, h]
  | emitWait hs h => rw [cycleBody_emit hs, awaitHandshake_wait _ h]
  | emitFrame hs h hk => rcases hk with hk | hk <;> rw [cycleBody_emit hs, awaitHandshake_ready _ h, afterHandshake, hk]
  | emitEnded hs h hk | emitUnrec hs h hk => rw [cycleBody_emit hs, awaitHandshake_ready _ h, afterHandshake, hk]
  | drainStop hs h => rw [cycleBody_drain hs, drainCycle_stop h]
  | drainByte hs h => rw [cycleBody_drain hs, drainCycle_byte h]
  | term hs => exact cycleBody_term hs

/-! ### the step -/

theorem step_of_cycleStep {s u : State} (hr : s.pins.rst = false) (h : CycleStep (beginCycle s) u) : step s = .next (endCycle u) := by
  rw [step_of_no_reset hr, cycleBody_of_cycleStep h, andThen_next]

theorem step_of_reset {s : State} (hr : s.pins.rst = true) : step s = .next (endCycle (resetRegisters s)) := by
  unfold step cycle
  exact if_pos hr

end Sys2Proof.Machine
end

section
/-! Frame-buffer bytes that the current frame has not written stay hidden (R32): the outputs do not show them, and no transition depends on them. -/

namespace Sys2Proof.Safety

open Sys2Proof.Machine

/-! ### the same state with another frame buffer -/

/-- The state with another frame buffer. -/
def withFb (m : Memory) (s : State) : State := { s with fb := m }

@[simp] theorem withFb_st (m : Memory) (s : State) : (withFb m s).st = s.st := rfl
@[simp] theorem withFb_tag (m : Memory) (s : State) : (withFb m s).tag = s.tag := rfl
@[simp] theorem withFb_tlen (m : Memory) (s : State) : (withFb m s).tlen = s.tlen := rfl
@[simp] theorem withFb_evk (m : Memory) (s : State) : (withFb m s).evk = s.evk := rfl
@[simp] theorem withFb_fb (m : Memory) (s : State) : (withFb m s).fb = m := rfl

/-- Two states that differ only in hidden bytes are one state with two frame buffers. -/
theorem sameVisible_iff {s t : State} :
    sameVisible s t ↔ ∃ m, t = withFb m s ∧ ∀ off, off < written s → s.fb.read off = m.read off := by
  constructor
  · rintro ⟨hregs, hbytes⟩
    have ht := congrArg (withFb t.fb) hregs
    exact ⟨t.fb, ht.symm, hbytes⟩
  · rintro ⟨m, rfl, hbytes⟩
    exact ⟨rfl, hbytes⟩

/-- Where the frame has written nothing, the whole frame buffer is hidden. -/
theorem sameVisible_of_unwritten {s : State} (m : Memory) (hw : written s = 0) : sameVisible s (withFb m s) :=
  ⟨rfl, fun off hoff => absurd (hw ▸ hoff) off.not_lt_zero⟩

theorem sameVisible_endCycle {s t : State} (h : sameVisible s t) : sameVisible (endCycle s) (endCycle t) := by
  obtain ⟨m, rfl, hbytes⟩ := sameVisible_iff.1 h
  exact ⟨rfl, hbytes⟩

/-! ### how far the frame in progress has written -/

theorem written_of_body {s : State} (hs : s.st = .dbg ∨ s.st = .tbuf) : written s = s.cnt.toNat := by
  rcases hs with hs | hs <;> simp only [written, hs]

/-- The count register holds the low 16 bits of a count, so no byte beyond the count. -/
theorem written_setCnt_le {s : State} (hs : s.st = .dbg ∨ s.st = .tbuf) (n : Nat) : written { s with cnt := BitVec.ofNat 16 n } ≤ n := by
  rw [written_of_body (s := { s with cnt := BitVec.ofNat 16 n }) hs, BitVec.toNat_ofNat]
  exact Nat.mod_le _ _

theorem written_of_dec {s : State} (hs : s.st = .dec) : written s = s.tlen.toNat := by simp only [written, hs]

theorem written_of_emit_debug {s : State} (hs : s.st = .emit) (hk : s.evk = .debug) : written s = 542 := by
  simp only [written, hs, hk, Config.dbgPayloadLen]

theorem written_of_emit_trace {s : State} (hs : s.st = .emit) (hk : s.evk = .trace) : written s = s.tlen.toNat := by
  simp only [written, hs, hk]

/-! ### the outputs -/

/-- The record check passes or fails by bytes below the length it is given (R50). -/
theorem trdCheck_congr {len : Nat} {m m' : Memory} (h : ∀ x, x < len → m.read x = m'.read x) : trdCheck len m = trdCheck len m' := by
  unfold trdCheck Config.trcHdrLen
  by_cases h8 : len < 8
  · rw [if_pos h8, if_pos h8]
  · obtain ⟨_, _, hraw⟩ := header_congr fun x hx => h x (by omega)
    obtain ⟨_, _, _, _, hneed⟩ := lengths_congr hraw
    rw [hneed]

/-- An indexed output is the same when its bytes below its length are (R73, R75). -/
theorem indexed_congr {α : Type} {n i : Nat} {f g : Nat → α} {z : α} (h : ∀ i, i < n → f i = g i) :
    (if i < n then g i else z) = if i < n then f i else z :=
  ite_congr rfl (fun hi => (h i hi).symm) fun _ => rfl

/-- A presented DebugMessage shows payload bytes only (R73). -/
theorem debugPort_congr {s : State} {m : Memory} (h : ∀ x, x < 542 → s.fb.read x = m.read x) (plIdx : Half) :
    debugPort (withFb m s) plIdx = debugPort s plIdx := by
  obtain ⟨hlen, htext⟩ := debug_congr h
  have htextLen : textLen m = textLen s.fb := by rw [textLen, textLen, hlen]
  have hclamp : clampFlag m = clampFlag s.fb := by rw [clampFlag, clampFlag, hlen]
  simp only [debugPort, withFb_tag, withFb_fb, htextLen, hclamp, indexed_congr htext]

/-- A presented TraceRecordEvent shows bytes below `need` only (R75). -/
theorem tracePort_congr {s : State} {m : Memory} (h : ∀ x, x < need s.fb → s.fb.read x = m.read x) (plIdx : Half) :
    tracePort (withFb m s) plIdx = tracePort s plIdx := by
  have hneed := need_eq s.fb
  obtain ⟨hts, hdur, hraw⟩ := header_congr fun x hx => h x (by omega)
  obtain ⟨hdir, hbits, hlen, hplen, _⟩ := lengths_congr hraw
  obtain ⟨hdata, hpar, hpbit, hpok⟩ := payload_congr h hlen
  simp only [tracePort, withFb_tag, withFb_fb, ← hts, ← hdur, ← hdir, ← hbits, ← hlen, ← hplen, indexed_congr hdata, indexed_congr hpar,
    indexed_congr hpbit, indexed_congr hpok]

/-- A pending trace event has passed the record check (R65). -/
theorem Inv.check_of_trace {s : State} (h : Inv s) (hs : s.st = .emit) (hk : s.evk = .trace) : trdCheck s.tlen.toNat s.fb = .ok := by
  have hf := h.frame
  simp only [frameOk, hs, hk] at hf
  exact hf.2

/-- The event port shows bytes that the frame has written only; a trace event has passed the check, by the invariant. -/
theorem eventPort_congr {s : State} {m : Memory} (h : Inv s) (hbytes : ∀ off, off < written s → s.fb.read off = m.read off) (plIdx : Half) :
    eventPort (withFb m s) plIdx = eventPort s plIdx := by
  unfold eventPort
  by_cases hs : s.st = .emit
  · simp only [withFb_st, withFb_evk, hs, if_true]
    cases hk : s.evk with
    | debug =>
      rw [written_of_emit_debug hs hk] at hbytes
      exact debugPort_congr hbytes plIdx
    | trace =>
      rw [written_of_emit_trace hs hk] at hbytes
      obtain ⟨_, hneed⟩ := (trdCheck_ok_iff _ _).1 (h.check_of_trace hs hk)
      exact tracePort_congr (fun x hx => hbytes x (by omega)) plIdx
    | ended | unrec => rfl
  · simp only [withFb_st, hs, if_false]

/-- The event of a handshake is read from the event port (R71). -/
theorem beginCycle_withFb {s : State} {m : Memory} (hport : ∀ plIdx, eventPort (withFb m s) plIdx = eventPort s plIdx) :
    beginCycle (withFb m s) = withFb m (beginCycle s) := by
  have hevent : presentedEvent (withFb m s) = presentedEvent s := by simp only [presentedEvent, hport, withFb_evk]
  have hover : handedOver (withFb m s) = handedOver s := by
    unfold handedOver
    rw [hevent]
    rfl
  unfold beginCycle
  rw [hover]
  rfl

/-! ### the transitions -/

/-- A byte written to both of two frame buffers that agree below its offset makes them agree one byte further. -/
theorem read_write_congr {m m' : Memory} {c : Nat} (b : Byte) (hm : m.wf = true) (hm' : m'.wf = true)
    (h : ∀ off, off < c → m.read off = m'.read off) {off : Nat} (hoff : off < c + 1) :
    (m.write c b).read off = (m'.write c b).read off := by
  rw [Memory.read_write hm, Memory.read_write hm']
  split
  · rfl
  · exact h off (by omega)

/-- The byte taken is stored whatever the hidden bytes are, and once counted it is the only byte that became visible (R61). -/
theorem store_withFb {s u : State} {m : Memory} {b : Byte} (hr : s.st.isRead = true) (hfb : s.fb.wf = true) (hm : m.wf = true)
    (hbytes : ∀ off, off < written s → s.fb.read off = m.read off) (hu : store s.cnt.toNat b s = .next u) :
    ∃ m', store s.cnt.toNat b (withFb m s) = .next (withFb m' u)
      ∧ sameVisible { u with cnt := BitVec.ofNat 16 (s.cnt.toNat + 1) } (withFb m' { u with cnt := BitVec.ofNat 16 (s.cnt.toNat + 1) }) := by
  rcases store_eq_next hr hu with ⟨hs, rfl⟩ | ⟨hs, rfl⟩ | ⟨hs, hc, rfl⟩
  · exact ⟨m, store_tag (s := withFb m s) hs _ _, sameVisible_of_unwritten m (by simp only [written, hs])⟩
  · exact ⟨m, store_tlen (s := withFb m s) hs _ _, sameVisible_of_unwritten m (by simp only [written, hs])⟩
  · refine ⟨m.write s.cnt.toNat b, store_body (s := withFb m s) hs b hc, rfl, fun off hoff => ?_⟩
    rw [written_of_body hs] at hbytes
    exact read_write_congr b hfb hm hbytes (lt_of_lt_of_le hoff (written_setCnt_le hs _))

/-- A completed tag begins its frame whatever the frame buffer holds, and nothing of the new frame is written yet (R64). -/
theorem exec_tagClass_withFb {s t : State} {tag : Half} (m : Memory) (hs : s.st = .tag)
    (h : exec (tagClass tag) { s with tag := tag, cnt := 0 } = .next t) :
    exec (tagClass tag) (withFb m { s with tag := tag, cnt := 0 }) = .next (withFb m t) ∧ written t = 0 := by
  rcases exec_tag (s := { s with tag := tag, cnt := 0 }) hs h with ⟨hi, rfl⟩ | ⟨hi, rfl⟩ | ⟨hi, rfl⟩ | ⟨_, hi, rfl⟩ <;> rw [hi]
  · exact ⟨by simp only [exec, execDbg, withFb_st, hs]; rfl, rfl⟩
  · exact ⟨by simp only [exec, execTrc, withFb_st, hs]; rfl, rfl⟩
  · exact ⟨by simp only [exec, execEndSession, withFb_st, hs]; rfl, rfl⟩
  · exact ⟨by simp only [exec, execUnrec, withFb_st, hs]; rfl, rfl⟩

/-- A completed length begins a read, or goes to the check with length 0: nothing of the frame's buffer is written yet (R64). -/
theorem sameVisible_lengthComplete (m : Memory) (s : State) :
    sameVisible (lengthComplete s) (lengthComplete (withFb m s)) := by
  unfold lengthComplete
  by_cases h0 : s.tlen = 0
  · rw [if_pos h0, withFb_tlen, if_pos h0]
    exact sameVisible_of_unwritten m (by simp [written, h0])
  · rw [if_neg h0, withFb_tlen, if_neg h0]
    exact sameVisible_of_unwritten m rfl

/-- A transition of one of two states that differ only in hidden bytes is a transition of the other, and leaves them so. -/
theorem cycleStep_withFb {s u : State} {m : Memory} (hfb : s.fb.wf = true) (hm : m.wf = true)
    (hbytes : ∀ off, off < written s → s.fb.read off = m.read off) (hstep : CycleStep s u) :
    ∃ u', CycleStep (withFb m s) u' ∧ sameVisible u u' := by
  have hkeep : sameVisible s (withFb m s) := ⟨rfl, hbytes⟩
  cases hstep with
  | idleWait hs h => exact ⟨_, .idleWait (s := withFb m s) hs h, hkeep⟩
  | idleStart hs h => exact ⟨_, .idleStart (s := withFb m s) hs h, sameVisible_of_unwritten m rfl⟩
  | closed hr h => exact ⟨_, .closed (s := withFb m s) hr h, sameVisible_of_unwritten m rfl⟩
  | readWait hr hc hv ht => exact ⟨_, .readWait (s := withFb m s) hr hc hv ht, hkeep⟩
  | idleTimeout hs hn hc hv ht => exact ⟨_, .idleTimeout (s := withFb m s) hs hn hc hv ht, sameVisible_of_unwritten m rfl⟩
  | timeout hr hn hc hv ht => exact ⟨_, .timeout (s := withFb m s) hr hn hc hv ht, sameVisible_of_unwritten m rfl⟩
  | byteMore hr hc hv ht hn u hu =>
    obtain ⟨m', hu', hvis⟩ := store_withFb hr hfb hm hbytes hu
    exact ⟨_, .byteMore (s := withFb m s) hr hc hv ht hn _ hu', hvis⟩
  | byteTimeout hr hc hv ht hn u hu =>
    obtain ⟨m', hu', _⟩ := store_withFb hr hfb hm hbytes hu
    exact ⟨_, .byteTimeout (s := withFb m s) hr hc hv ht hn _ hu', sameVisible_of_unwritten m' rfl⟩
  | tagDone hs hc hv hn t ht =>
    obtain ⟨hx, hw⟩ := exec_tagClass_withFb m hs ht
    exact ⟨_, .tagDone (s := withFb m s) hs hc hv hn _ hx, sameVisible_of_unwritten m hw⟩
  | dbgDone hs hc hv hn =>
    rw [written_of_body (.inl hs)] at hbytes
    exact ⟨_, .dbgDone (s := withFb m s) hs hc hv hn, rfl, fun off hoff => read_write_congr s.pins.inData hfb hm hbytes (hn ▸ hoff)⟩
  | tlenDone hs hc hv hn =>
    exact ⟨_, .tlenDone (s := withFb m s) hs hc hv hn, sameVisible_lengthComplete m _⟩
  | tbufDone hs hc hv hn =>
    rw [written_of_body (.inr hs)] at hbytes
    exact ⟨_, .tbufDone (s := withFb m s) hs hc hv hn, rfl, fun off hoff => read_write_congr s.pins.inData hfb hm hbytes (hn ▸ hoff)⟩
  | decOk hs h =>
    rw [written_of_dec hs] at hbytes
    exact ⟨_, .decOk (s := withFb m s) hs ((trdCheck_congr hbytes).symm.trans h), rfl, hbytes⟩
  | decTruncated hs h =>
    rw [written_of_dec hs] at hbytes
    exact ⟨_, .decTruncated (s := withFb m s) hs ((trdCheck_congr hbytes).symm.trans h), sameVisible_of_unwritten m rfl⟩
  | emitWait hs h => exact ⟨_, .emitWait (s := withFb m s) hs h, hkeep⟩
  | emitFrame hs h hk => exact ⟨_, .emitFrame (s := withFb m s) hs h hk, sameVisible_of_unwritten m rfl⟩
  | emitEnded hs h hk => exact ⟨_, .emitEnded (s := withFb m s) hs h hk, sameVisible_of_unwritten m rfl⟩
  | emitUnrec hs h hk => exact ⟨_, .emitUnrec (s := withFb m s) hs h hk, sameVisible_of_unwritten m rfl⟩
  | drainStop hs h => exact ⟨_, .drainStop (s := withFb m s) hs h, sameVisible_of_unwritten m rfl⟩
  | drainByte hs h => exact ⟨_, .drainByte (s := withFb m s) hs h, sameVisible_of_unwritten m (by simp only [written, hs])⟩
  | term hs => exact ⟨_, .term (s := withFb m s) hs, hkeep⟩

/-- Settles O12: the outputs show written bytes only, and each transition is one of both states. -/
theorem unwrittenFrameBufferBytesAreHidden : Obligations.UnwrittenFrameBufferBytesAreHidden := by
  intro s t h hm hvis
  obtain ⟨m, rfl, hbytes⟩ := sameVisible_iff.1 hvis
  have hport := eventPort_congr h hbytes
  refine ⟨fun plIdx => congrArg (fun port => { outputs s plIdx with port := port }) (hport plIdx).symm, fun s' hstep => ?_⟩
  rcases step_cases hstep with ⟨hr, rfl⟩ | ⟨hr, u, hu, rfl⟩
  · exact ⟨_, step_of_reset (s := withFb m s) hr, sameVisible_of_unwritten m rfl⟩
  · obtain ⟨u', hu', hvis'⟩ := cycleStep_withFb (s := beginCycle s) (m := m) h.fbCanonical hm hbytes hu
    rw [← beginCycle_withFb hport] at hu'
    exact ⟨_, step_of_cycleStep (s := withFb m s) hr hu', sameVisible_endCycle hvis'⟩

end Sys2Proof.Safety
end

section
/-! The frame buffer's operations `MemWrite` and `MemRead` (R24 to R27), and which byte of it a step writes (R31). -/

namespace Sys2Proof.Machine

/-! ### MemWrite -/

/-- Settles O8: an offset below FB_SIZE is written and reads back, any other offset is the fault. -/
theorem memWriteSetsOneByteOfTheFrameBuffer : Obligations.MemWriteSetsOneByteOfTheFrameBuffer := by
  intro s off v hfb
  refine ⟨fun hoff => ⟨_, memWrite_of_lt hoff, rfl, ?_, fun x hx => ?_⟩, fun hoff => memWrite_of_not_lt (not_lt_of_ge hoff)⟩
  · exact (Memory.read_write hfb off).trans (if_pos rfl)
  · exact (Memory.read_write hfb x).trans (if_neg hx.symm)

/-! ### MemRead -/

/-- Settles O9, by induction on the number of bytes: the bytes after the first are a read of their own, 256 times as heavy. -/
theorem memReadIsLittleEndian : Obligations.MemReadIsLittleEndian := by
  intro m off n
  induction n generalizing off with
  | zero => rfl
  | succ n ih =>
    rw [memRead_succ, ih, Finset.sum_range_succ', Finset.mul_sum, Nat.add_comm]
    congr 1
    · refine Finset.sum_congr rfl fun k _ => ?_
      rw [show off + 1 + k = off + (k + 1) by omega]
      ring
    · simp

/-- A read of `a + b` bytes is a read of the first `a` and a read of the other `b`, side by side (R26). -/
theorem memRead_add (m : Memory) (off a b : Nat) : memRead m off (a + b) = memRead m off a + 256 ^ a * memRead m (off + a) b := by
  induction a generalizing off with
  | zero => simp
  | succ a ih =>
    rw [Nat.succ_add, memRead_succ, memRead_succ, ih, show off + 1 + a = off + (a + 1) by omega]
    ring

/-- The high byte of `rawDataLen` is byte 7 of the header (R48). -/
theorem hiByte_rawDataLen (m : Memory) : hiByte (rawDataLen m) = m.read 7 := by
  rw [rawDataLen_eq, hiByte_halfOfBytes]

/-- The direction flag is the top bit of byte 7 (R27). -/
theorem dirFlag_eq_read (m : Memory) : dirFlag m = (m.read 7).getLsbD 7 := by
  rw [dirFlag_eq, ← hiByte_rawDataLen]
  simp [hiByte]

/-- The second word of the header is `{rawDataLen, duration}` (R27). -/
theorem memRead_second_word (m : Memory) : memRead m 4 4 = (duration m).toNat + 65536 * (rawDataLen m).toNat := by
  rw [duration_toNat, rawDataLen_toNat]
  exact memRead_add m 4 2 2

/-- Settles O10: the eight header bytes split after four, and the last four after two. -/
theorem mixedWidthViewsSeeTheSameBytes : Obligations.MixedWidthViewsSeeTheSameBytes := by
  intro m
  refine ⟨memRead_second_word m, ?_, dirFlag_eq_read m, hiByte_rawDataLen m⟩
  rw [← memRead_second_word, timestamp_toNat]
  exact memRead_add m 0 4 4

/-! ### which byte a step writes -/

/-- A transition leaves the frame buffer alone, or writes the byte taken at offset `cnt` in a frame's read. -/
theorem cycleStep_fb {s t : State} (h : CycleStep s t) :
    t.fb = s.fb ∨ ((s.st = .dbg ∨ s.st = .tbuf) ∧ s.pins.inValid = true ∧ t.fb = s.fb.write s.cnt.toNat s.pins.inData) := by
  cases h with
  | byteMore hr hc hv ht hn u hu | byteTimeout hr hc hv ht hn u hu =>
    rcases store_eq_next hr hu with ⟨_, rfl⟩ | ⟨_, rfl⟩ | ⟨hs, _, rfl⟩
    · exact .inl rfl
    · exact .inl rfl
    · exact .inr ⟨hs, hv, rfl⟩
  | dbgDone hs hc hv hn => exact .inr ⟨.inl hs, hv, rfl⟩
  | tbufDone hs hc hv hn => exact .inr ⟨.inr hs, hv, rfl⟩
  | tagDone hs hc hv hn t ht =>
    rcases exec_tagClass_cases hs ht with ⟨_, rfl⟩ | ⟨_, rfl⟩ | ⟨_, rfl⟩ | ⟨_, rfl⟩ <;> exact .inl rfl
  | tlenDone =>
    rcases lengthComplete_cases { s with tlen := setHiByte s.tlen s.pins.inData, cnt := 0 } with ⟨_, heq⟩ | ⟨_, heq⟩ <;> rw [heq] <;> exact .inl rfl
  | _ => exact .inl rfl

/-- Settles O11: a byte that reads differently is the one the frame's read has just written. -/
theorem frameBufferIsWrittenOnlyByFrameReads : Obligations.FrameBufferIsWrittenOnlyByFrameReads := by
  intro s t off hfb hstep hne
  rcases step_cases hstep with ⟨_, rfl⟩ | ⟨_, u, hu, rfl⟩
  · exact absurd rfl hne
  · rcases cycleStep_fb hu with hkeep | ⟨hs, hv, hwrite⟩
    · exact absurd (congrArg (Memory.read · off) hkeep) hne
    · have hread : u.fb.read off = if s.cnt.toNat = off then s.pins.inData else s.fb.read off := by
        rw [hwrite]
        exact Memory.read_write hfb off
      have hoff : s.cnt.toNat = off := by_contra fun h => hne (hread.trans (if_neg h))
      exact ⟨hs, hoff.symm, hv, hread.trans (if_pos hoff)⟩

end Sys2Proof.Machine
end

section
/-! What a run keeps once a session has ended (R34 (e), R81, R83). -/

namespace Sys2Proof.Safety

open Sys2Proof.Machine

/-- The session has ended in `s`, and from `s` to `t` it has neither gone on nor changed what it handed over, why it ended, or the frame buffer. -/
structure KeepsEnd (s t : State) : Prop where
  events : t.events = s.events
  cause : t.cause = s.cause
  ended : t.st = .drain ∨ t.st = .term
  fb : t.fb = s.fb

theorem KeepsEnd.trans {s t u : State} (h : KeepsEnd s t) (h' : KeepsEnd t u) : KeepsEnd s u where
  events := h'.events.trans h.events
  cause := h'.cause.trans h.cause
  ended := h'.ended
  fb := h'.fb.trans h.fb

/-! ### the pins of a run without a reset -/

theorem noResetFor_pins {n : Nat} {s : State} (h : noResetFor (n + 1) s) : s.pins.rst = false := by
  unfold noResetFor at h
  unfold State.pins
  cases hi : s.inputs with
  | nil => rfl
  | cons p ps => exact h p (by simp [hi])

theorem noResetFor_tail {n : Nat} {s t : State} (h : noResetFor (n + 1) s) (ht : t.inputs = s.inputs.tail) : noResetFor n t := by
  intro p hp
  rw [ht] at hp
  refine h p ?_
  cases hi : s.inputs with
  | nil => simp [hi] at hp
  | cons q qs =>
    rw [hi] at hp
    exact List.mem_cons_of_mem q hp

/-! ### steps and runs after the end -/

/-- An ended session presents no event. -/
theorem handedOver_of_ended {s : State} (hs : s.st = .drain ∨ s.st = .term) : handedOver s = [] := by
  rcases hs with hs | hs <;> simp [handedOver, evValid, hs]

/-- The drain cycle and the wait in `S_TERM` change `st` and `dcnt` only (R67, R68). -/
theorem cycleBody_of_ended {s : State} (hs : s.st = .drain ∨ s.st = .term) :
    ∃ x n, (x = .drain ∨ x = .term) ∧ cycleBody s = .next { s with st := x, dcnt := n } := by
  rcases hs with hs | hs
  · rw [cycleBody_drain hs]
    by_cases hd : s.pins.inClosed = true ∨ s.pins.inValid = false ∨ s.dcnt = s.drainMax
    · exact ⟨.term, s.dcnt, .inr rfl, by rw [drainCycle_stop hd]⟩
    · exact ⟨.drain, s.dcnt + 1, .inl rfl, by rw [drainCycle_byte hd, ← hs]⟩
  · exact ⟨.term, s.dcnt, .inr rfl, by rw [cycleBody_term hs, ← hs]⟩

theorem step_of_ended {s t : State} (hs : s.st = .drain ∨ s.st = .term) (hr : s.pins.rst = false) (hstep : step s = .next t) :
    KeepsEnd s t ∧ t.inputs = s.inputs.tail := by
  obtain ⟨x, n, hx, hbody⟩ := cycleBody_of_ended (s := beginCycle s) hs
  rw [step_of_no_reset hr, hbody] at hstep
  cases hstep
  have hevents : s.events ++ handedOver s = s.events := by rw [handedOver_of_ended hs, List.append_nil]
  exact ⟨⟨hevents, rfl, hx, rfl⟩, rfl⟩

/-- A run is its first step and the run from there. -/
theorem runSteps_succ_eq_next {n : Nat} {s t : State} (h : runSteps (n + 1) s = .next t) : ∃ u, step s = .next u ∧ runSteps n u = .next t :=
  andThen_eq_next h

theorem runSteps_keepsEnd {n : Nat} {s t : State} (hs : s.st = .drain ∨ s.st = .term) (hr : noResetFor n s) (hrun : runSteps n s = .next t) :
    KeepsEnd s t := by
  induction n generalizing s with
  | zero =>
    cases hrun
    exact ⟨rfl, rfl, hs, rfl⟩
  | succ n ih =>
    obtain ⟨u, hstep, hrest⟩ := runSteps_succ_eq_next hrun
    obtain ⟨hfirst, hin⟩ := step_of_ended hs (noResetFor_pins hr) hstep
    exact hfirst.trans (ih hfirst.ended (noResetFor_tail hr hin) hrest)

/-- Settles O37: each step after the end keeps what the session left. -/
theorem afterTheEndNothingIsHandedOver : Obligations.AfterTheEndNothingIsHandedOver := by
  intro n s t hs hr hrun
  obtain ⟨hevents, hcause, hended, hfb⟩ := runSteps_keepsEnd hs hr hrun
  exact ⟨hevents, hcause, hended, hfb⟩

end Sys2Proof.Safety
end

section
/-! Encoding (`30_encoding.md` R38 to R41): tags and whole frames on the wire decode to what they encode. -/

namespace Sys2Proof

/-! ### the tag of an operation -/

/-- R38: the tag as the number its two bytes spell. -/
theorem halfOfBytes_eq_ofNat (b0 b1 : Byte) : halfOfBytes b0 b1 = BitVec.ofNat 16 (b0.toNat + 256 * b1.toNat) := by
  rw [← halfOfBytes_toNat, BitVec.ofNat_toNat, BitVec.setWidth_eq]

/-- A well-formed operation is the class of its tag. -/
theorem tagClass_tag {i : Instr} (h : i.wf = true) : tagClass i.tag = i := by
  cases i with
  | dbg => exact Laws.ClassOfTag.dbg h
  | trc => exact Laws.ClassOfTag.trc h
  | endSession => exact Laws.ClassOfTag.endSession h
  | unrec tag => exact Laws.ClassOfTag.unrec tag h

/-- A tag is the tag of its class, which is a well-formed operation. -/
theorem tag_tagClass (tag : Half) : (tagClass tag).tag = tag ∧ (tagClass tag).wf = true := by
  rcases tagClass_cases tag with ⟨rfl, hc⟩ | ⟨rfl, hc⟩ | ⟨rfl, hc⟩ | ⟨hu, hc⟩ <;> rw [hc]
  · exact ⟨rfl, rfl⟩
  · exact ⟨rfl, rfl⟩
  · exact ⟨rfl, rfl⟩
  · exact ⟨rfl, hu⟩

theorem decode_encode {i : Instr} (h : i.wf = true) (rest : List Byte) : decode (encode i ++ rest) = .instr i rest := by
  simp only [encode, List.cons_append, List.nil_append, decode, halfOfBytes_lo_hi, tagClass_tag h]

/-! ### the obligations about tags -/

/-- Settles O13: the decoder takes the value of the first two bytes, and names what a shorter list lacks. -/
theorem tagIsTwoBytesLittleEndian : Obligations.TagIsTwoBytesLittleEndian := by
  intro b0 b1 rest
  refine ⟨?_, rfl, rfl⟩
  rw [← halfOfBytes_eq_ofNat, decode]

/-- Settles O14: the three recognized tags, and the complement. -/
theorem tagClassIsByExactEquality : Obligations.TagClassIsByExactEquality :=
  ⟨tagClass_tagDebug, tagClass_tagTrace, tagClass_tagEnd,
    fun tag hdbg htrc hend => tagClass_of_unrec ((isUnrecTag_iff tag).2 ⟨hdbg, htrc, hend⟩)⟩

/-- Settles O15, by evaluating the decoder on the seven words. -/
theorem wireBytesDecodeToTheirOperations : Obligations.WireBytesDecodeToTheirOperations := by
  unfold Obligations.WireBytesDecodeToTheirOperations
  decide

/-- Settles O16: the two tag bytes put together are the tag, whose class is the operation. -/
theorem decodeOfEncodeIsTheOperation : Obligations.DecodeOfEncodeIsTheOperation :=
  fun _ rest h => decode_encode h rest

/-- Settles O17: the class of the tag the two bytes spell has that tag. -/
theorem encodeOfDecodeIsTheBytes : Obligations.EncodeOfDecodeIsTheBytes := by
  intro b0 b1 rest
  obtain ⟨htag, hwf⟩ := tag_tagClass (halfOfBytes b0 b1)
  exact ⟨_, rfl, hwf, by rw [encode, htag, loByte_halfOfBytes, hiByte_halfOfBytes]⟩

end Sys2Proof

namespace Sys2Proof.Machine

/-! ### whole frames -/

/-- A number that fits 16 bits is not cut. -/
theorem toNat_ofNat_half {n : Nat} (h : n < 65536) : (BitVec.ofNat 16 n).toNat = n := by
  rw [BitVec.toNat_ofNat]
  exact Nat.mod_eq_of_lt h

/-- The two bytes `LEN n` spell `n` again, when `n` fits 16 bits (R40, R45). -/
theorem halfOfBytes_lenBytes_toNat {n : Nat} (h : n < 65536) :
    (halfOfBytes (loByte (BitVec.ofNat 16 n)) (hiByte (BitVec.ofNat 16 n))).toNat = n := by
  rw [halfOfBytes_lo_hi, toNat_ofNat_half h]

theorem takeBody_append (mk : List Byte → Frame) (body rest : List Byte) :
    takeBody mk body.length (body ++ rest) = .frame (mk body) rest := by
  rw [takeBody, if_pos (by simp), List.take_left, List.drop_left]

theorem Frame.instr_wf {f : Frame} (h : f.wf = true) : f.instr.wf = true := by
  cases f with
  | dbg | trc | endSession => rfl
  | unrec tag => exact h

/-- The tag of a frame decodes to its operation and leaves its body (R41). -/
theorem decode_bytes {f : Frame} (h : f.wf = true) (rest : List Byte) : decode (f.bytes ++ rest) = .instr f.instr (f.body ++ rest) := by
  rw [Frame.bytes, List.append_assoc, decode_encode (Frame.instr_wf h)]

theorem decodeFrame_bytes {f : Frame} (h : f.wf = true) (rest : List Byte) : decodeFrame (f.bytes ++ rest) = .frame f rest := by
  unfold decodeFrame
  rw [decode_bytes h]
  cases f with
  | dbg payload =>
    have hlen : payload.length = Config.dbgPayloadLen := of_decide_eq_true h
    show takeBody .dbg Config.dbgPayloadLen (payload ++ rest) = _
    rw [← hlen, takeBody_append]
  | trc buffer =>
    have hlen : buffer.length < 65536 := of_decide_eq_true h
    show takeBody .trc (halfOfBytes (loByte (BitVec.ofNat 16 buffer.length)) (hiByte (BitVec.ofNat 16 buffer.length))).toNat (buffer ++ rest) = _
    rw [halfOfBytes_lenBytes_toNat hlen, takeBody_append]
  | endSession => rfl
  | unrec tag => rfl

/-- The number of bytes of a frame (R40). -/
theorem Frame.bytes_length {f : Frame} (h : f.wf = true) : f.bytes.length = f.length := by
  cases f with
  | dbg payload =>
    have hlen : payload.length = 542 := of_decide_eq_true h
    simp [Frame.bytes, encode, Frame.body, Frame.length, hlen]
  | trc buffer =>
    simp [Frame.bytes, encode, Frame.body, lenBytes, Frame.length]
    omega
  | endSession => rfl
  | unrec tag => rfl

/-- Settles O18: the tag selects the frame, and the payload's fixed length or the length field says where its body ends. -/
theorem frameBytesDecodeToTheFrame : Obligations.FrameBytesDecodeToTheFrame :=
  fun _ rest h => ⟨decodeFrame_bytes h rest, Frame.bytes_length h⟩

end Sys2Proof.Machine
end

section
/-! The event of a frame that a frame buffer holds (R42, R43, R71): the event port shows what the frame's bytes mean. -/

namespace Sys2Proof.Machine

/-- The frame buffer holds the bytes `bs` from offset 0 on. -/
def Memory.Holds (m : Memory) (bs : List Byte) : Prop := ∀ x, x < bs.length → m.read x = bs.getD x 0

theorem Memory.holds_writeAll {m : Memory} {bs : List Byte} (h : m.wf = true) (hl : bs.length ≤ Config.fbSize) : (m.writeAll 0 bs).Holds bs := by
  intro x hx
  rw [Memory.read_writeAll h (by omega), if_pos (by omega), Nat.sub_zero]

section
variable {m : Memory} {bs : List Byte} {off n : Nat}

theorem Memory.Holds.memRead_eq (h : m.Holds bs) (hl : off + n ≤ bs.length) : memRead m off n = leNat (fieldBytes bs off n) :=
  memRead_eq_leNat (fun x _ hx => h x (by omega)) hl

theorem Memory.Holds.map_read_eq (h : m.Holds bs) (hl : off + n ≤ bs.length) :
    (List.range n).map (fun i => m.read (off + i)) = fieldBytes bs off n :=
  map_range_eq_fieldBytes (fun i hi => h (off + i) (by omega)) hl

end

/-! ### what the port presents, read through `pl_idx` (R71) -/

/-- An indexed output, read at every index below its length, gives all its entries: the index pins are wide enough. -/
theorem map_indexed {α : Type} {n : Nat} (f : Nat → α) (z : α) (hn : n ≤ 65536) :
    ((List.range n).map fun i => if (BitVec.ofNat 16 i).toNat < n then f (BitVec.ofNat 16 i).toNat else z) = (List.range n).map f := by
  refine List.map_congr_left fun i hi => ?_
  have hlt : i < n := List.mem_range.1 hi
  rw [toNat_ofNat_half (hlt.trans_le hn), if_pos hlt]

/-- A pending DebugMessage (R72, R73). -/
theorem presentedEvent_debug {s : State} (hs : s.st = .emit) (hk : s.evk = .debug) :
    presentedEvent s = .debugMessage ((List.range (textLen s.fb)).map (textByte s.fb)) (clampFlag s.fb) := by
  have hle := textLen_le s.fb
  have hport : ∀ plIdx, eventPort s plIdx = debugPort s plIdx := fun plIdx => by simp only [eventPort, hs, hk, if_true]
  have hlen : (BitVec.ofNat 16 (textLen s.fb)).toNat = textLen s.fb := toNat_ofNat_half (by omega)
  simp only [presentedEvent, hk, hport, debugPort, hlen, map_indexed (textByte s.fb) 0 (show textLen s.fb ≤ 65536 by omega)]

/-- The trace record in the frame buffer, as the event carries it (R55, R71). -/
def traceEventIn (m : Memory) : TraceEvent :=
  { timestamp := timestamp m
    duration := duration m
    direction := directionOf (dirFlag m)
    dataLen := (dataLenBits m).zeroExtend 16
    data := (List.range (dataLen m)).map (dataByte m)
    parity := (List.range (plen m)).map (parityByte m)
    parOk := (List.range (dataLen m)).map (parOk m)
    pbit := (List.range (dataLen m)).map (pbit m) }

theorem dataLenBits_zeroExtend_toNat (m : Memory) : ((dataLenBits m).zeroExtend 16).toNat = dataLen m :=
  BitVec.toNat_setWidth_of_le (by omega)

/-- A pending TraceRecordEvent (R74, R75). -/
theorem presentedEvent_trace {s : State} (hs : s.st = .emit) (hk : s.evk = .trace) : presentedEvent s = .traceRecord (traceEventIn s.fb) := by
  have hdata := dataLen_lt s.fb
  have hle := plen_le s.fb
  have hport : ∀ plIdx, eventPort s plIdx = tracePort s plIdx := fun plIdx => by simp only [eventPort, hs, hk, if_true]
  have hplen : (BitVec.ofNat 16 (plen s.fb)).toNat = plen s.fb := toNat_ofNat_half (by omega)
  have hd : dataLen s.fb ≤ 65536 := by omega
  simp only [presentedEvent, hk, hport, tracePort, dataLenBits_zeroExtend_toNat, hplen, map_indexed (dataByte s.fb) 0 hd,
    map_indexed (pbit s.fb) false hd, map_indexed (parOk s.fb) false hd, map_indexed (parityByte s.fb) 0 (show plen s.fb ≤ 65536 by omega),
    traceEventIn]

/-! ### what the bytes mean (R42, R43) -/

/-- The DebugMessage of a payload that the frame buffer holds. -/
theorem debugEventOf_eq {m : Memory} {payload : List Byte} (h : m.Holds payload) (hl : payload.length = 542) :
    debugEventOf payload = .debugMessage ((List.range (textLen m)).map (textByte m)) (clampFlag m) := by
  have hle := textLen_le m
  have hmsg : leNat (fieldBytes payload 6 8) = msgLen m := (h.memRead_eq (by omega)).symm
  have htext : fieldBytes payload 30 (textLen m) = (List.range (textLen m)).map (textByte m) := (h.map_read_eq (by omega)).symm
  have hlen : min (msgLen m) 512 = textLen m := rfl
  have hclamp : decide (512 < msgLen m) = clampFlag m := rfl
  rw [debugEventOf, hmsg, hlen, htext, hclamp]

/-- The direction flag as a bound on `rawDataLen` (R43, R48). -/
theorem dirFlag_eq_decide (m : Memory) : dirFlag m = decide (32768 ≤ (rawDataLen m).toNat) := by
  rw [dirFlag_eq]
  exact BitVec.msb_eq_decide (rawDataLen m)

/-- The fields of a complete record that the frame buffer holds (R51 to R53). -/
theorem traceFieldsOf_eq {m : Memory} {buffer : List Byte} (h : m.Holds buffer) (hl : need m ≤ buffer.length) :
    traceFieldsOf buffer (dataLen m) (dirFlag m) = traceEventIn m := by
  have hneed := need_eq m
  have hdata : fieldBytes buffer 8 (dataLen m) = (List.range (dataLen m)).map (dataByte m) := (h.map_read_eq (by omega)).symm
  have hpar : fieldBytes buffer (8 + dataLen m) (plen m) = (List.range (plen m)).map (parityByte m) := (h.map_read_eq (by omega)).symm
  have hbits : (List.range (dataLen m)).map (fun i => (((List.range (plen m)).map (parityByte m)).getD (i / 8) 0).getLsbD (7 - i % 8))
      = (List.range (dataLen m)).map (pbit m) := by
    refine List.map_congr_left fun i hi => ?_
    have hlt : i < dataLen m := List.mem_range.1 hi
    have hj : i / 8 < plen m := by
      rw [plen_eq]
      omega
    simp [pbit, hj]
  have hlen : BitVec.ofNat 16 (dataLen m) = (dataLenBits m).zeroExtend 16 := by
    rw [← dataLenBits_zeroExtend_toNat, BitVec.ofNat_toNat, BitVec.setWidth_eq]
  have hok : List.zipWith pchk ((List.range (dataLen m)).map (dataByte m)) ((List.range (dataLen m)).map (pbit m))
      = (List.range (dataLen m)).map (parOk m) := by
    rw [List.zipWith_map, List.zipWith_self]
    rfl
  simp only [traceFieldsOf, ← h.memRead_eq (show 0 + 4 ≤ buffer.length by omega), ← h.memRead_eq (show 4 + 2 ≤ buffer.length by omega), hdata,
    ← plen_eq, hpar, hbits, hok, hlen]
  rfl

/-- The event of a trace buffer that the frame buffer holds: there is one exactly when the record check passes (R50, R55). -/
theorem traceEventOf_eq {m : Memory} {buffer : List Byte} (h : m.Holds buffer) :
    traceEventOf buffer = if trdCheck buffer.length m = .ok then some (.traceRecord (traceEventIn m)) else none := by
  unfold traceEventOf
  by_cases h8 : buffer.length < 8
  · rw [if_pos h8, if_neg fun hok => by have := (trdCheck_ok_iff _ _).1 hok; omega]
  · have hraw : leNat (fieldBytes buffer 6 2) = (rawDataLen m).toNat := by
      rw [rawDataLen_toNat]
      exact (h.memRead_eq (by omega)).symm
    have hneed := need_eq m
    simp only [if_neg h8, hraw, ← dataLen_eq, ← plen_eq, ← dirFlag_eq_decide, ← hneed]
    by_cases hn : buffer.length < need m
    · rw [if_pos hn, if_neg fun hok => by have := (trdCheck_ok_iff _ _).1 hok; omega]
    · rw [if_neg hn, if_pos ((trdCheck_ok_iff _ _).2 ⟨by omega, by omega⟩), traceFieldsOf_eq h (by omega)]

end Sys2Proof.Machine
end

section
/-! Whole frames offered without a wait, from tag to tag (R72, R74, R76), and sessions of them. -/

namespace Sys2Proof.Machine

/-! ### the reads of a frame -/

/-- The payload read of a debug frame, to the pending event (R61, R64, R72). -/
theorem run_payload {s : State} {payload : List Byte} {tl : List Inputs} (hs : s.st = .dbg) (hn : s.cnt = 0) (hl : payload.length = 542)
    (hin : s.inputs = payload.map byteCycle ++ tl) :
    runSteps 542 s = .next { s with st := .emit, evk := .debug, cnt := 0, fb := s.fb.writeAll 0 payload, rdq := false, inputs := tl,
                                    taken := s.taken + 542 } := by
  have hn0 : s.cnt.toNat = 0 := by simp [hn]
  obtain rfl | ⟨bs, b, rfl⟩ := payload.eq_nil_or_concat'
  · simp at hl
  · have hbs : bs.length = 541 := by simpa using hl
    have hmore := run_bodyBytes bs (tl := byteCycle b :: tl) (.inl hs) (by simpa using hin) (by rw [readLen_dbg hs]; omega)
    rw [hn0, hbs] at hmore
    refine runSteps_trans (m := 541) (n := 1) hmore (runSteps_one ((step_payloadByte_last (by exact hs) rfl rfl).trans ?_))
    rw [Memory.writeAll_append, hbs]
    rfl

/-- The buffer read of a trace frame whose length is not 0, to the check (R61, R64, R74). -/
theorem run_buffer {s : State} {buffer : List Byte} {tl : List Inputs} (hs : s.st = .tbuf) (hn : s.cnt = 0) (hl : s.tlen.toNat = buffer.length)
    (hne : buffer ≠ []) (hin : s.inputs = buffer.map byteCycle ++ tl) :
    runSteps buffer.length s = .next { s with st := .dec, cnt := 0, fb := s.fb.writeAll 0 buffer, rdq := false, inputs := tl,
                                              taken := s.taken + buffer.length } := by
  have hn0 : s.cnt.toNat = 0 := by simp [hn]
  obtain rfl | ⟨bs, b, rfl⟩ := buffer.eq_nil_or_concat'
  · exact absurd rfl hne
  · have hlen : (bs ++ [b]).length = bs.length + 1 := by simp
    rw [hlen] at hl ⊢
    have hlt := s.tlen.isLt
    have hmore := run_bodyBytes bs (tl := byteCycle b :: tl) (.inr hs) (by simpa using hin) (by rw [readLen_tbuf hs]; omega)
    rw [hn0, Nat.zero_add] at hmore
    have hcnt : (BitVec.ofNat 16 bs.length).toNat = bs.length := toNat_ofNat_half (by omega)
    refine runSteps_trans hmore (runSteps_one ((step_bufferByte_last (by exact hs) rfl (by simp only [hcnt, hl])).trans ?_))
    simp only [hcnt, Memory.writeAll_append, Nat.zero_add, Memory.writeAll, Nat.add_assoc]

/-- The length and the buffer of a trace frame, to the check; a length of 0 has no buffer read (R64, R74). -/
theorem run_traceBody {s : State} {buffer : List Byte} {tl : List Inputs} (hs : s.st = .tlen) (hn : s.cnt = 0) (hl : buffer.length < 65536)
    (hin : s.inputs = (lenBytes buffer.length ++ buffer).map byteCycle ++ tl) :
    runSteps (2 + buffer.length) s
      = .next { s with st := .dec, cnt := 0, tlen := BitVec.ofNat 16 buffer.length, fb := s.fb.writeAll 0 buffer, rdq := false, inputs := tl,
                       taken := s.taken + (2 + buffer.length) } := by
  have hlen : (BitVec.ofNat 16 buffer.length).toNat = buffer.length := toNat_ofNat_half hl
  have htlen : setHiByte (setLoByte s.tlen (loByte (BitVec.ofNat 16 buffer.length))) (hiByte (BitVec.ofNat 16 buffer.length))
      = BitVec.ofNat 16 buffer.length := by rw [setHiByte_setLoByte, halfOfBytes_lo_hi]
  have hfirst := runSteps_one (step_lengthByte_first hs hn hin)
  by_cases hnil : buffer = []
  · subst hnil
    exact runSteps_trans (m := 1) (n := 1) hfirst (runSteps_one (step_lengthByte_zero hs rfl rfl htlen))
  · have hne : BitVec.ofNat 16 buffer.length ≠ 0 := fun h0 => by
      rw [h0] at hlen
      exact hnil (List.length_eq_zero_iff.1 hlen.symm)
    have hsecond := runSteps_trans (m := 1) (n := 1) hfirst (runSteps_one (step_lengthByte_nonzero hs rfl rfl (by rw [htlen]; exact hne)))
    rw [htlen] at hsecond
    refine runSteps_trans hsecond ((run_buffer rfl rfl hlen hnil rfl).trans ?_)
    rw [Nat.add_assoc, Nat.add_assoc]

/-! ### the record check -/

theorem decCycle_ok {s : State} (h : trdCheck s.tlen.toNat s.fb = .ok) : decCycle s = present .trace s := by rw [decCycle, h]

/-- A check cycle that the record passes (R65). -/
theorem step_check_ok {s : State} {tl : List Inputs} (hs : s.st = .dec) (hok : trdCheck s.tlen.toNat s.fb = .ok)
    (hin : s.inputs = Inputs.quiet :: tl) : step s = .next { s with st := .emit, evk := .trace, rdq := false, inputs := tl } := by
  rw [step_check hs hin, decCycle_ok (by exact hok)]
  simp [endCycle, present, hin]

/-! ### whole frames -/

/-- A debug frame, from tag to tag (R72). -/
theorem run_dbgFrame {s : State} {payload : List Byte} {tl : List Inputs} (hs : s.st = .tag) (hn : s.cnt = 0) (hfb : s.fb.wf = true)
    (hl : payload.length = 542) (hin : s.inputs = (Frame.dbg payload).cycles ++ tl) :
    runSteps 545 s
      = .next { s with tag := Config.tagDebug, evk := .debug, rdq := true, fb := s.fb.writeAll 0 payload, inputs := tl,
                       events := s.events ++ [debugEventOf payload], taken := s.taken + 544 } := by
  have htag := run_tag (i := .dbg) (tl := payload.map byteCycle ++ readyCycle :: tl) rfl hs hn
    (by simpa [Frame.cycles, Frame.bytes, Frame.body, Frame.instr] using hin) (by simp only [exec, execDbg, hs]; rfl)
  have hbody := runSteps_trans htag (run_payload (tl := readyCycle :: tl) rfl rfl hl rfl)
  refine runSteps_trans (m := 544) (n := 1) hbody (runSteps_one ((step_frameHandshake rfl (.inl rfl) rfl).trans ?_))
  have hholds : (s.fb.writeAll 0 payload).Holds payload := Memory.holds_writeAll hfb (by simp only [Config.fbSize]; omega)
  rw [presentedEvent_debug rfl rfl, debugEventOf_eq hholds hl, hs, hn]
  rfl

/-- The bytes of a trace frame, from the tag to the check (R74). -/
theorem run_trcBytes {s : State} {buffer : List Byte} {tl : List Inputs} (hs : s.st = .tag) (hn : s.cnt = 0) (hl : buffer.length < 65536)
    (hin : s.inputs = (Frame.trc buffer).bytes.map byteCycle ++ tl) :
    runSteps (buffer.length + 4) s
      = .next { s with st := .dec, tag := Config.tagTrace, tlen := BitVec.ofNat 16 buffer.length, rdq := false, fb := s.fb.writeAll 0 buffer,
                       inputs := tl, taken := s.taken + 4 + buffer.length } := by
  have htag := run_tag (i := .trc) (tl := (lenBytes buffer.length ++ buffer).map byteCycle ++ tl) rfl hs hn
    (by simpa [Frame.bytes, Frame.body, Frame.instr] using hin) (by simp only [exec, execTrc, hs]; rfl)
  have hbody := runSteps_trans htag (run_traceBody rfl rfl hl rfl)
  rw [show buffer.length + 4 = 2 + (2 + buffer.length) by omega, show s.taken + 4 + buffer.length = s.taken + 2 + (2 + buffer.length) by omega,
    hbody, hn]
  rfl

/-- A trace frame whose record passes the check, from tag to tag (R74). -/
theorem run_trcFrame {s : State} {buffer : List Byte} {e : Event} {tl : List Inputs} (hs : s.st = .tag) (hn : s.cnt = 0) (hfb : s.fb.wf = true)
    (hl : buffer.length < 65536) (he : traceEventOf buffer = some e) (hin : s.inputs = (Frame.trc buffer).cycles ++ tl) :
    runSteps (buffer.length + 6) s
      = .next { s with tag := Config.tagTrace, tlen := BitVec.ofNat 16 buffer.length, evk := .trace, rdq := true, fb := s.fb.writeAll 0 buffer,
                       inputs := tl, events := s.events ++ [e], taken := s.taken + 4 + buffer.length } := by
  have hholds : (s.fb.writeAll 0 buffer).Holds buffer := Memory.holds_writeAll hfb (by simp only [Config.fbSize]; omega)
  rw [traceEventOf_eq hholds] at he
  obtain ⟨hok, rfl⟩ : trdCheck buffer.length (s.fb.writeAll 0 buffer) = .ok ∧ .traceRecord (traceEventIn (s.fb.writeAll 0 buffer)) = e := by
    simpa using he
  have hbytes := run_trcBytes (tl := Inputs.quiet :: readyCycle :: tl) hs hn hl (by simpa [Frame.cycles] using hin)
  have hcheck := runSteps_trans hbytes (runSteps_one (step_check_ok rfl (by rw [toNat_ofNat_half hl]; exact hok) rfl))
  refine runSteps_trans (m := buffer.length + 5) (n := 1) hcheck (runSteps_one ((step_frameHandshake rfl (.inr rfl) rfl).trans ?_))
  rw [presentedEvent_trace rfl rfl, hs, hn]

/-- An END frame, from the tag to the drain (R76). -/
theorem run_endFrame {s : State} {tl : List Inputs} (hs : s.st = .tag) (hn : s.cnt = 0) (hin : s.inputs = Frame.endSession.cycles ++ tl) :
    runSteps 3 s
      = .next { s with st := .drain, tag := Config.tagEnd, evk := .ended, cause := .sessionEnded, dcnt := 0, rdq := false, inputs := tl,
                       events := s.events ++ [.sessionEnded], taken := s.taken + 2 } := by
  have htag := run_tag (i := .endSession) (tl := readyCycle :: tl) rfl hs hn hin (by simp only [exec, execEndSession, hs]; rfl)
  exact runSteps_trans htag (runSteps_one (step_endedHandshake rfl rfl rfl))

/-! ### sessions -/

/-- A frame that keeps the session going and hands over `e` (R71). -/
structure KeepsSession (f : Frame) (e : Event) : Prop where
  wf : f.wf = true
  instr : f.instr = .dbg ∨ f.instr = .trc
  event : f.event = some e

theorem forall₂_keepsSession {frames : List Frame} {es : List Event} (hframes : ∀ f ∈ frames, f.wf = true ∧ (f.instr = .dbg ∨ f.instr = .trc))
    (hevents : frames.map Frame.event = es.map some) : List.Forall₂ KeepsSession frames es := by
  rw [← List.forall₂_eq_eq_eq, List.forall₂_map_left_iff, List.forall₂_map_right_iff] at hevents
  exact ((List.forall₂_and_left _ _).2 ⟨hframes, hevents⟩).imp fun f e ⟨⟨hwf, hinstr⟩, hevent⟩ => ⟨hwf, hinstr, hevent⟩

/-- From `s` to `t` the FTD has handed over the events `es` and taken `n` bytes, and it reads the next tag, with the pins `tl` to come. -/
structure ReachesTag (s t : State) (es : List Event) (n : Nat) (tl : List Inputs) : Prop where
  st : t.st = .tag
  cnt : t.cnt = 0
  fb : t.fb.wf = true
  inputs : t.inputs = tl
  events : t.events = s.events ++ es
  taken : t.taken = s.taken + n

/-- A debug frame or a complete trace frame leads from tag to tag. -/
theorem run_frame {s : State} {f : Frame} {e : Event} {tl : List Inputs} (hf : KeepsSession f e) (hs : s.st = .tag) (hn : s.cnt = 0)
    (hfb : s.fb.wf = true) (hin : s.inputs = f.cycles ++ tl) : ∃ t, runSteps f.cycles.length s = .next t ∧ ReachesTag s t [e] f.length tl := by
  obtain ⟨hwf, hinstr, hevent⟩ := hf
  cases f with
  | dbg payload =>
    have hlen : payload.length = 542 := of_decide_eq_true hwf
    have hcycles : (Frame.dbg payload).cycles.length = 545 := by simp [Frame.cycles, Frame.bytes_length hwf, Frame.length]
    cases hevent
    rw [hcycles, run_dbgFrame hs hn hfb hlen hin]
    exact ⟨_, rfl, hs, hn, Memory.wf_writeAll hfb (by simp only [Config.fbSize]; omega), rfl, rfl, rfl⟩
  | trc buffer =>
    have hlen : buffer.length < 65536 := of_decide_eq_true hwf
    have hcycles : (Frame.trc buffer).cycles.length = buffer.length + 6 := by
      simp [Frame.cycles, Frame.bytes_length hwf, Frame.length]
      omega
    rw [hcycles, run_trcFrame hs hn hfb hlen hevent hin]
    exact ⟨_, rfl, hs, hn, Memory.wf_writeAll hfb (by simp only [Config.fbSize]; omega), rfl, rfl, Nat.add_assoc _ _ _⟩
  | endSession | unrec tag => simp [Frame.instr] at hinstr

/-- A list of such frames leads from tag to tag and hands over their events in order. -/
theorem run_frames {frames : List Frame} {es : List Event} (hall : List.Forall₂ KeepsSession frames es) {s : State} {tl : List Inputs}
    (hs : s.st = .tag) (hn : s.cnt = 0) (hfb : s.fb.wf = true) (hin : s.inputs = frames.flatMap Frame.cycles ++ tl) :
    ∃ t, runSteps (frames.flatMap Frame.cycles).length s = .next t ∧ ReachesTag s t es (frames.map Frame.length).sum tl := by
  induction hall generalizing s with
  | nil => exact ⟨s, rfl, hs, hn, hfb, hin, (List.append_nil _).symm, rfl⟩
  | cons hf _ ih =>
    rw [List.flatMap_cons, List.append_assoc] at hin
    obtain ⟨t, hrun, ht⟩ := run_frame hf hs hn hfb hin
    obtain ⟨u, hrest, hu⟩ := ih ht.st ht.cnt ht.fb ht.inputs
    refine ⟨u, ?_, hu.st, hu.cnt, hu.fb, hu.inputs, ?_, ?_⟩
    · rw [List.flatMap_cons, List.length_append]
      exact runSteps_trans hrun hrest
    · rw [hu.events, ht.events, List.append_assoc, List.singleton_append]
    · rw [hu.taken, ht.taken, List.map_cons, List.sum_cons, Nat.add_assoc]

/-- Settles O60: the frames one by one, by induction on their list, then the END frame, then a drain cycle in which no byte is offered. -/
theorem sessionHandsOverTheEventsOfItsFrames : Obligations.SessionHandsOverTheEventsOfItsFrames := by
  intro s frames events rest hs hn hfb hframes hevents hin
  have hall := forall₂_keepsSession hframes hevents
  rw [List.append_assoc] at hin
  obtain ⟨t, hrun, ht⟩ := run_frames hall hs hn hfb hin
  have hend := runSteps_trans (run_endFrame ht.st ht.cnt ht.inputs) (runSteps_one (step_drain_quiet rfl rfl))
  exact ⟨_, runSteps_trans hrun hend, rfl, rfl, by rw [ht.events], rfl, by rw [ht.taken]⟩

end Sys2Proof.Machine
end

section
/-! PCHK (R46): the verdict is the XOR of the byte's bits and the parity bit, and it is linear, so a flipped bit flips it. -/

namespace Sys2Proof.Machine

/-- The XOR of some bits says whether an odd number of them is set. -/
theorem decide_odd_sum_toNat (bits : List Bool) (p : Bool) :
    decide (((bits.map Bool.toNat).sum + p.toNat) % 2 = 1) = bits.foldr xor p := by
  induction bits with
  | nil => cases p <;> rfl
  | cons c bits ih =>
    rw [List.foldr_cons, ← ih, List.map_cons, List.sum_cons, Nat.add_assoc]
    cases c with
    | false => simp
    | true =>
      rw [Bool.toNat_true, Bool.true_xor, ← decide_not, decide_eq_decide]
      omega

/-- R46's `xor_reduce(b) ^ p`, as a fold over the byte's bits. -/
theorem pchk_eq_foldr_xor (b : Byte) (p : Bool) : pchk b p = ((List.range 8).map b.getLsbD).foldr xor p := by
  rw [← decide_odd_sum_toNat, List.map_map]
  rfl

/-- R46's `xor_reduce(b) ^ p`, bit by bit. -/
theorem pchk_eq_xor (b : Byte) (p : Bool) :
    pchk b p = (b.getLsbD 7 ^^ b.getLsbD 6 ^^ b.getLsbD 5 ^^ b.getLsbD 4 ^^ b.getLsbD 3 ^^ b.getLsbD 2 ^^ b.getLsbD 1 ^^ b.getLsbD 0 ^^ p) := by
  have hbits : (List.range 8).map b.getLsbD =
      [b.getLsbD 0, b.getLsbD 1, b.getLsbD 2, b.getLsbD 3, b.getLsbD 4, b.getLsbD 5, b.getLsbD 6, b.getLsbD 7] := rfl
  rw [pchk_eq_foldr_xor, hbits]
  simp only [List.foldr_cons, List.foldr_nil, Bool.xor_comm, Bool.xor_left_comm]

theorem foldr_xor_map_xor (f g : Nat → Bool) (is : List Nat) (p q : Bool) :
    (is.map fun i => f i ^^ g i).foldr xor (p ^^ q) = ((is.map f).foldr xor p ^^ (is.map g).foldr xor q) := by
  induction is with
  | nil => rfl
  | cons i is ih => simp only [List.map_cons, List.foldr_cons, ih, Bool.xor_assoc, Bool.xor_left_comm]

/-- The verdict is linear: a change of the byte and the parity bit changes the verdict by the parity of the change. -/
theorem pchk_xor (b c : Byte) (p q : Bool) : pchk (b ^^^ c) (p ^^ q) = (pchk b p ^^ pchk c q) := by
  have hbits : (b ^^^ c).getLsbD = fun i => b.getLsbD i ^^ c.getLsbD i := funext fun _ => BitVec.getLsbD_xor
  rw [pchk_eq_foldr_xor, hbits, foldr_xor_map_xor, ← pchk_eq_foldr_xor, ← pchk_eq_foldr_xor]

theorem pchk_not (b : Byte) (p : Bool) : pchk b (!p) = !pchk b p := by
  have hodd : pchk 0#8 true = true := by decide
  simpa [hodd] using pchk_xor b 0#8 p true

theorem pchk_xor_twoPow (b : Byte) (p : Bool) (k : Fin 8) : pchk (b ^^^ BitVec.twoPow 8 k.val) p = !pchk b p := by
  have hodd : ∀ k : Fin 8, pchk (BitVec.twoPow 8 k.val) false = true := by decide
  simpa [hodd k] using pchk_xor b (BitVec.twoPow 8 k.val) p false

/-- Settles O19: the XOR form gives linearity, and a flip is a change by one bit, whose parity is odd. -/
theorem parityVerdictIsOddParity : Obligations.ParityVerdictIsOddParity :=
  fun b p => ⟨decide_eq_true_iff, pchk_eq_xor b p, pchk_not b p, pchk_xor_twoPow b p⟩

end Sys2Proof.Machine
end

section
/-! TRD (`41_trace_record_decoder.md`): the header's fields byte by byte (R48), the record check (R50), what the decoded record reads (R51, R55), and the
order of the parity bits (R52). -/

namespace Sys2Proof.Machine

/-! ### field extraction (R48) -/

theorem memRead_two (m : Memory) (off : Nat) : memRead m off 2 = (m.read off).toNat + 256 * (m.read (off + 1)).toNat := rfl

theorem memRead_four (m : Memory) (off : Nat) :
    memRead m off 4 =
      (m.read off).toNat + 256 * (m.read (off + 1)).toNat + 65536 * (m.read (off + 2)).toNat + 16777216 * (m.read (off + 3)).toNat := by
  rw [memRead_add m off 2 2, memRead_two, memRead_two, Nat.add_assoc off 2 1]
  omega

/-- The mask 0x7FFF is the complement of DIR_MASK: it keeps the data length (R48). -/
theorem dataLen_eq_mask (m : Memory) : dataLen m = (rawDataLen m &&& 0x7FFF).toNat := by
  rw [dataLen_eq, BitVec.toNat_and]
  exact (Nat.and_two_pow_sub_one_eq_mod _ 15).symm

theorem header_le_need (m : Memory) : 8 ≤ need m := by
  rw [need_eq]
  omega

/-- `8 + 32767 + 4096`: a record's bytes fit in the frame buffer. -/
theorem need_le (m : Memory) : need m ≤ 36871 := by
  have hdata := dataLen_lt m
  have hparity := plen_le m
  rw [need_eq]
  omega

/-- Settles O20: each header field is a little-endian read, the flag is bit 15 of `rawDataLen`, and the lengths follow from its low 15 bits. -/
theorem recordFieldsAreExtractedFromTheHeader : Obligations.RecordFieldsAreExtractedFromTheHeader := fun m =>
  ⟨(timestamp_toNat m).trans (memRead_four m 0), (duration_toNat m).trans (memRead_two m 4), (rawDataLen_toNat m).trans (memRead_two m 6),
    dirFlag_eq m, dirFlag_eq_read m, dataLen_eq m, dataLen_eq_mask m, plen_eq m, need_eq m, plen_le m, header_le_need m, need_le m⟩

/-! ### the record check (R50) -/

/-- Settles O21: both comparisons are needed for OK, and TruncatedRecord is the other result. -/
theorem recordCheckComparesLengthWithNeed : Obligations.RecordCheckComparesLengthWithNeed := by
  intro len m
  rw [trdCheck_truncated_iff, trdCheck_ok_iff, ← need_eq]
  exact ⟨Iff.rfl, by omega⟩

/-! ### the decoded record (R51, R55) -/

theorem decodeTraceRecord_ne_none {len : Nat} {m : Memory} (h : trdCheck len m = .ok) : decodeTraceRecord len m ≠ none := by
  simp [decodeTraceRecord, h]

theorem map_range_congr {α : Type} {n : Nat} {f g : Nat → α} (h : ∀ i, i < n → f i = g i) : (List.range n).map f = (List.range n).map g :=
  List.map_congr_left fun i hi => h i (List.mem_range.1 hi)

/-- The record's header, lengths and slices, and with them the result of the check, are bytes below `need` (R48, R51). -/
theorem decodeTraceRecord_congr {m m' : Memory} (h : ∀ off, off < need m → m.read off = m'.read off) (len : Nat) :
    decodeTraceRecord len m' = decodeTraceRecord len m := by
  have hheader := header_le_need m
  obtain ⟨hts, hdur, hraw⟩ := header_congr fun x hx => h x (by omega)
  obtain ⟨hdir, hbits, hlen, hplen, hneed⟩ := lengths_congr hraw
  obtain ⟨hdata, hpar, _, hpok⟩ := payload_congr h hlen
  have hcheck : trdCheck len m' = trdCheck len m := by rw [trdCheck, trdCheck, hneed]
  simp only [decodeTraceRecord, hcheck, ← hts, ← hdur, ← hdir, ← hbits, ← hlen, ← hplen, map_range_congr hdata, map_range_congr hpar,
    map_range_congr hpok]

/-- Settles O22: the record reads bytes below `need` only, and there is one because the check passes. -/
theorem recordIgnoresBytesFromNeedOn : Obligations.RecordIgnoresBytesFromNeedOn := fun len _ _ hok hbytes =>
  ⟨decodeTraceRecord_congr hbytes len, decodeTraceRecord_ne_none hok⟩

/-! ### slices and parity bits (R51 to R53) -/

/-- Bit `k` of a parity byte, counted from its most significant bit, belongs to the data byte at the same place of that group of eight (R52). -/
theorem pbit_group (m : Memory) (j : Nat) {k : Nat} (hk : k < 8) : pbit m (8 * j + k) = (parityByte m j).getLsbD (7 - k) := by
  rw [pbit, show (8 * j + k) / 8 = j by omega, show (8 * j + k) % 8 = k by omega]

/-- Settles O23: the slices are the model's own (R51), and indices 0, 7 and 8 are the ends of parity byte 0 and the start of parity byte 1. -/
theorem parityBitsAreTakenMostSignificantFirst : Obligations.ParityBitsAreTakenMostSignificantFirst := fun m =>
  ⟨fun _ => rfl, fun _ => rfl, fun _ => rfl, pbit_group m 0 (k := 0) (by decide), pbit_group m 0 (k := 7) (by decide),
    pbit_group m 1 (k := 0) (by decide), fun _ => rfl⟩

end Sys2Proof.Machine
end

section
/-! What every cycle does around its case: the handshakes it records, and what no transition writes (R8, R69). -/

namespace Sys2Proof.Machine

/-! ### the handshakes of a cycle -/

theorem handedOver_eq (s : State) : handedOver s = if s.st = .emit ∧ s.pins.evReady = true then [presentedEvent s] else [] := by
  simp [handedOver, evValid]

theorem bytesTaken_eq (s : State) : bytesTaken s = if s.pins.inValid = true ∧ inReady s = true then 1 else 0 := by
  simp [bytesTaken]

/-- Outside `S_EMIT` a cycle begins by counting its byte handshake and no more. -/
theorem beginCycle_of_ne_emit {s : State} {n : Nat} (hs : s.st ≠ .emit) (hn : bytesTaken s = n) :
    beginCycle s = { s with rdq := false, taken := s.taken + n } := by
  have hover : handedOver s = [] := by rw [handedOver_eq, if_neg fun h => hs h.1]
  rw [beginCycle, hover, hn, List.append_nil]

theorem bytesTaken_of_not_ready {s : State} (h : inReady s = false) : bytesTaken s = 0 := by
  rw [bytesTaken_eq, if_neg (by simp [h])]

/-- A read state takes every byte offered (R19). -/
theorem bytesTaken_of_isRead {s : State} (hr : s.st.isRead = true) : bytesTaken s = if s.pins.inValid = true then 1 else 0 := by
  simp [bytesTaken_eq, inReady, hr]

theorem ne_emit_of_isRead {x : St} (h : x.isRead = true) : x ≠ .emit := by
  rintro rfl
  cases h

theorem beginCycle_of_isRead {s : State} (hr : s.st.isRead = true) :
    beginCycle s = { s with rdq := false, taken := s.taken + if s.pins.inValid = true then 1 else 0 } :=
  beginCycle_of_ne_emit (ne_emit_of_isRead hr) (bytesTaken_of_isRead hr)

/-! ### what no transition writes -/

/-- The parameter, the pins and the observation are the same in both states. -/
structure SameSurroundings (s t : State) : Prop where
  drainMax : t.drainMax = s.drainMax
  inputs : t.inputs = s.inputs
  events : t.events = s.events
  taken : t.taken = s.taken

theorem SameSurroundings.refl (s : State) : SameSurroundings s s := ⟨rfl, rfl, rfl, rfl⟩

theorem sameSurroundings_of_store {c : Nat} {b : Byte} {s u : State} (hu : store c b s = .next u) : SameSurroundings s u := by
  rw [store_frame hu]
  exact ⟨rfl, rfl, rfl, rfl⟩

/-- The case of a cycle writes registers and the frame buffer only. -/
theorem cycleStep_sameSurroundings {s t : State} (h : CycleStep s t) : SameSurroundings s t := by
  cases h with
  | byteMore hr hc hv ht hn u hu | byteTimeout hr hc hv ht hn u hu => exact { sameSurroundings_of_store hu with }
  | tagDone hs hc hv hn t ht =>
    rcases exec_tagClass_cases hs ht with ⟨_, rfl⟩ | ⟨_, rfl⟩ | ⟨_, rfl⟩ | ⟨_, rfl⟩ <;> exact { SameSurroundings.refl s with }
  | tlenDone =>
    rcases lengthComplete_cases { s with tlen := setHiByte s.tlen s.pins.inData, cnt := 0 } with ⟨_, heq⟩ | ⟨_, heq⟩ <;> rw [heq] <;>
      exact { SameSurroundings.refl s with }
  | _ => exact { SameSurroundings.refl s with }

/-- Settles O26: the observation is written before the case, the pins move after it, and the case writes none of them. -/
theorem everyCycleRecordsItsHandshakes : Obligations.EveryCycleRecordsItsHandshakes := by
  intro s t hr hstep
  rcases step_cases hstep with ⟨hr', _⟩ | ⟨_, u, hu, rfl⟩
  · rw [hr] at hr'
    cases hr'
  obtain ⟨hdrain, hinputs, hevents, htaken⟩ := cycleStep_sameSurroundings hu
  rw [← handedOver_eq, ← bytesTaken_eq]
  exact ⟨congrArg List.tail hinputs, hevents, htaken, hdrain⟩

end Sys2Proof.Machine
end

section
/-! The read cycle, step by step: its items in order (R60), the first tag byte (R61), closure (R63) and timeouts (R62). -/

namespace Sys2Proof.Safety

open Sys2Proof.Machine

/-! ### the items of a read cycle -/

/-- Chains that go on alike from every next state their first part answers are the same. -/
theorem andThen_congr {o : Result} {k k' : State → Result} (h : ∀ t, o = .next t → k t = k' t) : andThen o k = andThen o k' := by
  cases o with
  | next t => exact h t rfl
  | fault r | refused r => rfl

/-- Counting a byte is taking what the cycle presents after it: a timeout, or nothing. -/
theorem next_countByte (complete : State → Result) (c : Nat) (t : State) :
    .next (countByte c t) = takeItems complete (if t.pins.inTimeout then [.timeout] else []) c t := by
  cases ht : t.pins.inTimeout <;> simp [countByte, ht, takeItems]

/-- Settles O30, by the items the pins present: closure alone, a byte and what follows it, a timeout, or nothing. -/
theorem readCycleTakesItsItemsInOrder : Obligations.ReadCycleTakesItsItemsInOrder := by
  intro complete s
  cases hc : s.pins.inClosed
  · cases hv : s.pins.inValid
    · cases ht : s.pins.inTimeout
      · rw [readCycle_wait complete hc hv ht]
        simp [inputItems, hc, hv, ht, takeItems]
      · rw [readCycle_timeout complete hc hv ht]
        simp [inputItems, hc, hv, ht, takeItems]
    · rw [readCycle_byte complete hc hv]
      simp only [inputItems, hc, hv, if_true, Bool.false_eq_true, if_false, List.singleton_append, takeItems]
      refine andThen_congr fun u hu => ?_
      have hpins : u.pins = s.pins := by rw [store_frame hu]; rfl
      rw [next_countByte complete, hpins]
  · rw [readCycle_closed complete hc]
    simp [inputItems, hc, takeItems]

/-! ### one step of a read -/

/-- Settles O29: byte 0 of a tag does not complete it. -/
theorem firstTagByteIsTheLowByte : Obligations.FirstTagByteIsTheLowByte := by
  intro s hs hn hr hc hv ht
  have hread : s.st.isRead = true := by rw [hs]; rfl
  have hshort : s.cnt.toNat + 1 ≠ readLen s := by rw [readLen_tag hs, hn]; decide
  have hbegin := beginCycle_of_isRead hread
  rw [if_pos hv] at hbegin
  have hstore := store_tag (s := beginCycle s) hs s.cnt.toNat s.pins.inData
  rw [step_of_cycleStep hr (.byteMore (s := beginCycle s) hread hc hv ht hshort _ hstore)]
  rw [hbegin, hn]
  rfl

/-- Settles O31: the closure is the cycle's one item. -/
theorem closureInAReadStateEndsTheSession : Obligations.ClosureInAReadStateEndsTheSession := by
  intro s hread hr hc
  rw [step_of_cycleStep hr (.closed hread hc), beginCycle_of_isRead hread]
  rfl

/-- A byte that leaves its read short is stored where its state says; of a tag or length it is then the low byte (R61). -/
theorem store_of_short {s : State} (b : Byte) (hr : s.st.isRead = true) (hlt : s.cnt.toNat < readLen s) (hn : s.cnt.toNat + 1 ≠ readLen s) :
    store s.cnt.toNat b s
      = .next { s with tag := if s.st = .tag then halfOfBytes b (hiByte s.tag) else s.tag
                       tlen := if s.st = .tlen then halfOfBytes b (hiByte s.tlen) else s.tlen
                       fb := if s.st = .dbg ∨ s.st = .tbuf then s.fb.write s.cnt.toNat b else s.fb } := by
  have hfb : s.cnt.toNat < Config.fbSize := hlt.trans_le (readLen_le s)
  rcases isRead_cases hr with hs | hs | hs | hs
  · rw [readLen_tag hs] at hlt hn
    rw [store_tag hs, if_pos (by omega)]
    simp [hs, setLoByte]
  · rw [store_body (.inl hs) b hfb]
    simp [hs]
  · rw [readLen_tlen hs] at hlt hn
    rw [store_tlen hs, if_pos (by omega)]
    simp [hs, setLoByte]
  · rw [store_body (.inr hs) b hfb]
    simp [hs]

/-- Settles O32: without a byte the timeout finds the tag not begun or a read cut short; after a byte that leaves the read short it cuts the read short. -/
theorem timeoutEndsTheReadShort : Obligations.TimeoutEndsTheReadShort := by
  intro s h hread hr hc ht
  have hbegin := beginCycle_of_isRead hread
  refine ⟨fun hv => ?_, fun hv hn => ?_⟩
  · rw [if_neg (by simp [hv])] at hbegin
    by_cases h0 : s.st = .tag ∧ s.cnt = 0
    · obtain ⟨hs, hn⟩ := h0
      rw [step_of_cycleStep hr (.idleTimeout hs hn hc hv ht), hbegin, if_pos ⟨hs, hn⟩, ← hs]
      rfl
    · rw [step_of_cycleStep hr (.timeout hread h0 hc hv ht), hbegin, if_neg h0]
      rfl
  · rw [if_pos hv] at hbegin
    have hstore := store_of_short (s := beginCycle s) s.pins.inData hread (h.countBound hread) hn
    rw [step_of_cycleStep hr (.byteTimeout (s := beginCycle s) hread hc hv ht hn _ hstore), hbegin]
    rfl

end Sys2Proof.Safety
end

section
/-! The drain and the end of a session, step by step and to their bounds (R67, R68, R70). -/

namespace Sys2Proof.Safety

open Sys2Proof.Machine

/-! ### the drain -/

/-- Below DRAIN_MAX the drain takes the byte offered (R19). -/
theorem bytesTaken_of_drain {s : State} (hs : s.st = .drain) :
    bytesTaken s = if s.pins.inValid = true ∧ s.dcnt < s.drainMax then 1 else 0 := by
  simp [bytesTaken_eq, inReady_iff, hs]

/-- Settles O34: the two transitions of `S_DRAIN`; a byte that is counted is below DRAIN_MAX, so it is taken. -/
theorem drainDiscardsOneByteOrStops : Obligations.DrainDiscardsOneByteOrStops := by
  intro s hs hle hr
  have hbegin := beginCycle_of_ne_emit (by simp [hs]) (bytesTaken_of_drain hs)
  by_cases hd : s.pins.inClosed = true ∨ s.pins.inValid = false ∨ s.dcnt = s.drainMax
  · rw [if_pos hd, step_of_cycleStep hr (.drainStop hs hd), hbegin]
    rfl
  · have hbyte : s.pins.inValid = true ∧ s.dcnt < s.drainMax := by
      simp only [not_or, Bool.not_eq_false] at hd
      exact ⟨hd.2.1, lt_of_le_of_ne hle hd.2.2⟩
    rw [if_pos hbyte] at hbegin
    rw [if_neg hd, step_of_cycleStep hr (.drainByte hs hd), hbegin]
    rfl

theorem runSteps_succ_of_step {n : Nat} {s u : State} (h : step s = .next u) : runSteps (n + 1) s = runSteps n u := by
  rw [runSteps, h, andThen_next]

/-- Settles O35, by induction on the bytes the drain may still discard: each cycle stops the drain or uses up one of them. -/
theorem drainEndsWithinItsBound : Obligations.DrainEndsWithinItsBound := by
  intro s hs hle hreset
  induction hk : s.drainMax - s.dcnt generalizing s with
  | zero =>
    have hd : s.pins.inClosed = true ∨ s.pins.inValid = false ∨ s.dcnt = s.drainMax := .inr (.inr (by omega))
    have hstep := drainDiscardsOneByteOrStops s hs hle (noResetFor_pins hreset)
    rw [if_pos hd, if_neg (by omega)] at hstep
    exact ⟨1, _, le_rfl, runSteps_one hstep, rfl, rfl, rfl, rfl, rfl, rfl, le_rfl⟩
  | succ k ih =>
    have hstep := drainDiscardsOneByteOrStops s hs hle (noResetFor_pins hreset)
    by_cases hd : s.pins.inClosed = true ∨ s.pins.inValid = false ∨ s.dcnt = s.drainMax
    · rw [if_pos hd] at hstep
      refine ⟨1, _, by omega, runSteps_one hstep, rfl, rfl, rfl, rfl, rfl, rfl, ?_⟩
      dsimp only
      split <;> omega
    · rw [if_neg hd] at hstep
      rw [hk] at hreset
      have hleft : s.drainMax - (s.dcnt + 1) = k := by omega
      obtain ⟨n, t, hn, hrun, hst, hcause, htag, htlen, hfb, hevents, htaken⟩ :=
        ih { s with dcnt := s.dcnt + 1, rdq := false, inputs := s.inputs.tail, taken := s.taken + 1 } hs (by dsimp only; omega)
          (by dsimp only; rw [hleft]; exact noResetFor_tail hreset rfl) hleft
      exact ⟨n + 1, t, by omega, (runSteps_succ_of_step hstep).trans hrun, hst, hcause, htag, htlen, hfb, hevents,
        htaken.trans (by dsimp only; omega)⟩

/-! ### the end -/

/-- In `S_TERM` a step without a reset moves to the next pins and clears `rdq` (R68). -/
theorem step_term {s : State} (hs : s.st = .term) (hr : s.pins.rst = false) :
    step s = .next { s with rdq := false, inputs := s.inputs.tail } := by
  have hready : inReady s = false := by simp [inReady, hs, St.isRead]
  rw [step_of_cycleStep hr (.term hs), beginCycle_of_ne_emit (by simp [hs]) (bytesTaken_of_not_ready hready)]
  rfl

/-- Settles O36, by induction on the number of steps. -/
theorem terminatedStaysTerminated : Obligations.TerminatedStaysTerminated := by
  intro n s hs hq
  refine ⟨fun hreset => ?_, fun plIdx => ⟨(doneFlag_iff s).2 hs, ?_⟩, fun hr => ⟨_, step_of_reset hr, rfl⟩⟩
  · induction n generalizing s with
    | zero => rfl
    | succ n ih =>
      have hstep := step_term hs (noResetFor_pins hreset)
      rw [runSteps_succ_of_step hstep, ih { s with rdq := false, inputs := s.inputs.tail } hs rfl (noResetFor_tail hreset rfl), List.drop_tail, ← hq]
  · simp [outputs, inReady, hs, St.isRead]

end Sys2Proof.Safety
end

section
/-! Which pins a step honours in each state (R58, R60, R65 to R68). -/

namespace Sys2Proof.Safety

open Sys2Proof.Machine

/-! ### one state with two sets of pins -/

/-- What a cycle answers when its case answers `o`: the next pins are up, so the pins of this edge are gone. -/
def closeCycle (o : Result) : Result := andThen o fun t => .next (endCycle t)

theorem step_eq_closeCycle {s : State} (hr : s.pins.rst = false) : step s = closeCycle (cycleBody (beginCycle s)) := step_of_no_reset hr

/-- A byte is stored whatever the other pins are (R61). -/
theorem store_withPins (p : Inputs) (c : Nat) (b : Byte) (s : State) :
    store c b (withPins p s) = andThen (store c b s) fun t => .next (withPins p t) := by
  cases hs : s.st
  case tag => rw [store_tag hs, store_tag (s := withPins p s) hs]; rfl
  case tlen => rw [store_tlen hs, store_tlen (s := withPins p s) hs]; rfl
  case dbg | tbuf =>
    by_cases hc : c < Config.fbSize <;> simp [store, withPins, hs, memWrite, hc]
  all_goals simp [store, withPins, hs]

/-- Pins that differ where no handshake looks leave the beginning of the cycle the same. -/
theorem beginCycle_withPins {s : State} {p q : Inputs} (hready : s.st = .emit → p.evReady = q.evReady)
    (hvalid : inReady s = true → p.inValid = q.inValid) : beginCycle (withPins q s) = withPins q (beginCycle (withPins p s)) := by
  have hover : handedOver (withPins q s) = handedOver (withPins p s) := by
    rw [handedOver_eq, handedOver_eq]
    show (if s.st = .emit ∧ q.evReady = true then [presentedEvent s] else []) = if s.st = .emit ∧ p.evReady = true then [presentedEvent s] else []
    by_cases hs : s.st = .emit
    · rw [hready hs]
    · simp [hs]
  have htaken : bytesTaken (withPins q s) = bytesTaken (withPins p s) := by
    show (if (q.inValid && inReady s) = true then 1 else 0) = if (p.inValid && inReady s) = true then 1 else 0
    cases hi : inReady s
    · simp
    · rw [hvalid hi]
  unfold beginCycle
  rw [hover, htaken]
  rfl

/-- Two sets of pins give the same step when the handshakes and the case of the cycle agree on them. -/
theorem step_withPins_congr {s : State} {p q : Inputs} (hrst : p.rst = q.rst) (hready : s.st = .emit → p.evReady = q.evReady)
    (hvalid : inReady s = true → p.inValid = q.inValid)
    (hbody : ∀ t : State, t.st = s.st → t.cnt = s.cnt → t.tlen = s.tlen →
      closeCycle (cycleBody (withPins p t)) = closeCycle (cycleBody (withPins q t))) :
    step (withPins p s) = step (withPins q s) := by
  cases hr : p.rst
  · rw [step_eq_closeCycle (s := withPins p s) hr, step_eq_closeCycle (s := withPins q s) (hrst.symm.trans hr), beginCycle_withPins hready hvalid]
    exact hbody (beginCycle (withPins p s)) rfl rfl rfl
  · rw [step_of_reset (s := withPins p s) hr, step_of_reset (s := withPins q s) (hrst.symm.trans hr)]
    rfl

/-- A state whose case is one update of the state: the update may look at the pins that agree only. -/
theorem step_withPins_of_next {s : State} {p q : Inputs} {f : State → State} (hcase : ∀ t : State, t.st = s.st → cycleBody t = .next (f t))
    (hrst : p.rst = q.rst) (hready : s.st = .emit → p.evReady = q.evReady) (hvalid : inReady s = true → p.inValid = q.inValid)
    (hf : ∀ t, endCycle (f (withPins p t)) = endCycle (f (withPins q t))) : step (withPins p s) = step (withPins q s) := by
  refine step_withPins_congr hrst hready hvalid fun t hst _ _ => ?_
  rw [hcase (withPins p t) hst, hcase (withPins q t) hst]
  exact congrArg Host.Outcome.next (hf t)

/-! ### the read states -/

theorem endCycle_timeoutItem_withPins (p q : Inputs) (c : Nat) (t : State) :
    endCycle (timeoutItem c (withPins p t)) = endCycle (timeoutItem c (withPins q t)) := by
  by_cases h : t.st = .tag ∧ c = 0
  · obtain ⟨hs, rfl⟩ := h
    rw [timeoutItem_retry (s := withPins p t) hs, timeoutItem_retry (s := withPins q t) hs]
    rfl
  · rw [timeoutItem_raise (s := withPins p t) h, timeoutItem_raise (s := withPins q t) h]
    rfl

/-- A byte is counted, or cut short by a timeout, as `in_timeout` says (R60, R62). -/
theorem endCycle_countByte_withPins {p q : Inputs} (ht : p.inTimeout = q.inTimeout) (c : Nat) (t : State) :
    endCycle (countByte c (withPins p t)) = endCycle (countByte c (withPins q t)) := by
  show endCycle (if p.inTimeout then _ else _) = endCycle (if q.inTimeout then _ else _)
  rw [ht]
  cases q.inTimeout
  · rfl
  · exact endCycle_timeoutItem_withPins p q c t

/-- A read cycle depends on closure and the byte offered, and on `in_timeout` unless a byte completes the read (R60). -/
theorem readCycle_withPins {complete : State → Result} {s : State} {p q : Inputs} (hc : p.inClosed = q.inClosed) (hv : p.inValid = q.inValid)
    (hd : p.inData = q.inData) (ht : p.inTimeout = q.inTimeout ∨ (p.inValid = true ∧ s.cnt.toNat + 1 = readLen s))
    (hcomplete : ∀ t : State, t.st = s.st → closeCycle (complete (withPins p t)) = closeCycle (complete (withPins q t))) :
    closeCycle (readCycle complete (withPins p s)) = closeCycle (readCycle complete (withPins q s)) := by
  cases hcp : p.inClosed
  case true =>
    rw [readCycle_closed (s := withPins p s) complete hcp, readCycle_closed (s := withPins q s) complete (hc.symm.trans hcp)]
    rfl
  cases hvp : p.inValid
  case true =>
    rw [readCycle_byte (s := withPins p s) complete hcp hvp,
      readCycle_byte (s := withPins q s) complete (hc.symm.trans hcp) (hv.symm.trans hvp)]
    show closeCycle (andThen (store s.cnt.toNat p.inData (withPins p s)) _) = closeCycle (andThen (store s.cnt.toNat q.inData (withPins q s)) _)
    rw [store_withPins, store_withPins, hd]
    cases hu : store s.cnt.toNat q.inData s with
    | fault r | refused r => rfl
    | next u =>
      show closeCycle (if s.cnt.toNat + 1 = readLen s then _ else _) = closeCycle (if s.cnt.toNat + 1 = readLen s then _ else _)
      by_cases hl : s.cnt.toNat + 1 = readLen s
      · rw [if_pos hl, if_pos hl]
        exact hcomplete { u with cnt := 0 } (by rw [store_frame hu])
      · rw [if_neg hl, if_neg hl]
        exact congrArg Host.Outcome.next (endCycle_countByte_withPins (ht.resolve_right fun h => hl h.2) _ u)
  case false =>
    have htq : p.inTimeout = q.inTimeout := ht.resolve_right fun h => by simp [hvp] at h
    cases htp : p.inTimeout
    · rw [readCycle_wait (s := withPins p s) complete hcp hvp htp,
        readCycle_wait (s := withPins q s) complete (hc.symm.trans hcp) (hv.symm.trans hvp) (htq.symm.trans htp)]
      rfl
    · rw [readCycle_timeout (s := withPins p s) complete hcp hvp htp,
        readCycle_timeout (s := withPins q s) complete (hc.symm.trans hcp) (hv.symm.trans hvp) (htq.symm.trans htp)]
      exact congrArg Host.Outcome.next (endCycle_timeoutItem_withPins p q _ s)

/-- A completed tag begins its frame whatever the pins are (R64). -/
theorem exec_tag_withPins (p q : Inputs) (i : Instr) {s : State} (hs : s.st = .tag) :
    closeCycle (exec i (withPins p s)) = closeCycle (exec i (withPins q s)) := by
  cases i <;> simp only [exec, execDbg, execTrc, execEndSession, execUnrec, withPins, hs] <;> rfl

/-- Each read state has its completion, which looks at no pin (R64). -/
theorem cycleBody_read_withPins {x : St} (hr : x.isRead = true) :
    ∃ complete, (∀ s : State, s.st = x → cycleBody s = readCycle complete s)
      ∧ ∀ (p q : Inputs) (s : State), s.st = x → closeCycle (complete (withPins p s)) = closeCycle (complete (withPins q s)) := by
  rcases isRead_cases hr with rfl | rfl | rfl | rfl
  · exact ⟨_, fun _ => cycleBody_tag, fun p q s hs => exec_tag_withPins p q (tagClass s.tag) hs⟩
  · exact ⟨_, fun _ => cycleBody_dbg, fun _ _ _ _ => rfl⟩
  · refine ⟨_, fun _ => cycleBody_tlen, fun p q s _ => congrArg Host.Outcome.next ?_⟩
    show endCycle (if s.tlen = 0 then _ else _) = endCycle (if s.tlen = 0 then _ else _)
    split <;> rfl
  · exact ⟨_, fun _ => cycleBody_tbuf, fun _ _ _ _ => rfl⟩

/-- In a read state the step depends on closure and the byte offered, and on `in_timeout` unless a byte completes the read (R60). -/
theorem step_withPins_of_isRead {s : State} {p q : Inputs} (hr : s.st.isRead = true) (hrst : p.rst = q.rst) (hc : p.inClosed = q.inClosed)
    (hv : p.inValid = q.inValid) (hd : p.inData = q.inData)
    (ht : p.inTimeout = q.inTimeout ∨ (p.inValid = true ∧ s.cnt.toNat + 1 = readLen s)) :
    step (withPins p s) = step (withPins q s) := by
  obtain ⟨complete, hbody, hcomplete⟩ := cycleBody_read_withPins hr
  refine step_withPins_congr hrst (fun hs => absurd hs (ne_emit_of_isRead hr)) (fun _ => hv) fun t hst hcnt htlen => ?_
  have hlen : readLen t = readLen s := by rw [readLen, readLen, hst, htlen]
  rw [hbody (withPins p t) hst, hbody (withPins q t) hst]
  exact readCycle_withPins hc hv hd (by rw [hcnt, hlen]; exact ht) fun u hu => hcomplete p q u (hu.trans hst)

/-- Settles O33: the timeout is the one pin that differs, and the byte completes the read. -/
theorem byteThatCompletesDropsTheTimeout : Obligations.ByteThatCompletesDropsTheTimeout :=
  fun _ hread _ _ hv hn _ => step_withPins_of_isRead hread rfl rfl rfl rfl (.inr ⟨hv, hn⟩)

/-! ### every state -/

/-- Settles O38, state by state: the case of the cycle looks at the pins its rule names, and the handshakes at `in_valid` and `ev_ready` where they can
be made. -/
theorem eachStateHonoursOnlyItsPins : Obligations.EachStateHonoursOnlyItsPins := by
  intro s p q hrst h
  cases hs : s.st <;> simp only [hs] at h
  case tag | dbg | tlen | tbuf =>
    obtain ⟨hc, hv, hd, ht⟩ := h
    exact step_withPins_of_isRead (by rw [hs]; rfl) hrst hc hv hd (.inl ht)
  case idle =>
    refine step_withPins_of_next (fun t ht => cycleBody_idle (ht.trans hs)) hrst (by simp [hs]) (by simp [inReady_iff, hs]) fun t => ?_
    show endCycle (if p.start then _ else _) = endCycle (if q.start then _ else _)
    rw [h]
    split <;> rfl
  case dec =>
    refine step_withPins_of_next (fun t ht => cycleBody_dec (ht.trans hs)) hrst (by simp [hs]) (by simp [inReady_iff, hs]) fun t => ?_
    cases hk : trdCheck t.tlen.toNat t.fb <;> simp only [decCycle, withPins, hk] <;> rfl
  case emit =>
    refine step_withPins_of_next (fun t ht => cycleBody_emit (ht.trans hs)) hrst (fun _ => h) (by simp [inReady_iff, hs]) fun t => ?_
    show endCycle (if p.evReady then _ else _) = endCycle (if q.evReady then _ else _)
    rw [h]
    cases hk : t.evk <;> simp only [afterHandshake, withPins, hk] <;> split <;> rfl
  case drain =>
    obtain ⟨hc, hv⟩ := h
    refine step_withPins_of_next (fun t ht => cycleBody_drain (ht.trans hs)) hrst (by simp [hs]) (fun _ => hv) fun t => ?_
    show endCycle (if p.inClosed = true ∨ p.inValid = false ∨ t.dcnt = t.drainMax then _ else _)
      = endCycle (if q.inClosed = true ∨ q.inValid = false ∨ t.dcnt = t.drainMax then _ else _)
    rw [hc, hv]
    split <;> rfl
  case term =>
    exact step_withPins_of_next (f := id) (fun t ht => cycleBody_term (ht.trans hs)) hrst (by simp [hs]) (by simp [inReady_iff, hs]) fun _ => rfl

/-- Settles O28: the two transitions of `S_IDLE`; elsewhere `start` is no pin that a rule names. -/
theorem startBeginsTheTagRead : Obligations.StartBeginsTheTagRead := by
  refine fun s => ⟨fun hs hr => ?_, fun hs b => eachStateHonoursOnlyItsPins s _ _ rfl ?_⟩
  · have hready : inReady s = false := by simp [inReady, hs, St.isRead]
    have hbegin := beginCycle_of_ne_emit (by simp [hs]) (bytesTaken_of_not_ready hready)
    cases hp : s.pins.start
    · rw [step_of_cycleStep hr (.idleWait hs hp), hbegin]
      rfl
    · rw [step_of_cycleStep hr (.idleStart hs hp), hbegin]
      rfl
  · cases hx : s.st
    case idle => exact absurd hx hs
    all_goals simp

end Sys2Proof.Safety
end

section
/-! The four operations, one cycle each (R61, R64 to R66, R72 to R77): which operation a step runs, what its cycle does, and its frame. -/

namespace Sys2Proof.Machine

/-! ### which operation a step runs (R56, R64) -/

section
variable {s : State} (hs : s.st = .tag)
include hs

theorem exec_dbg_of_tag : exec .dbg s = .next (startRead .dbg s) := by simp only [exec, execDbg, hs]

theorem exec_trc_of_tag : exec .trc s = .next (startRead .tlen s) := by simp only [exec, execTrc, hs]

theorem exec_endSession_of_tag : exec .endSession s = .next (present .ended s) := by simp only [exec, execEndSession, hs]

theorem exec_unrec_of_tag (tag : Half) : exec (.unrec tag) s = .next (present .unrec s) := by simp only [exec, execUnrec, hs]

end

/-- Settles O27, one lemma an operation. -/
theorem completedTagBeginsItsFrame : Obligations.CompletedTagBeginsItsFrame :=
  fun _ tag hs => ⟨exec_dbg_of_tag hs, exec_trc_of_tag hs, exec_endSession_of_tag hs, exec_unrec_of_tag hs tag⟩

/-- Settles O24: the second byte completes the tag, and decoding the two bytes is taking the class of the tag they spell. -/
theorem stepRunsTheDecodedTag : Obligations.StepRunsTheDecodedTag := by
  intro s i hs hn hr hc hv hdec
  have hi : tagClass (halfOfBytes (loByte s.tag) s.pins.inData) = i := by
    injection hdec
  subst hi
  have hstore := store_tag (s := beginCycle s) hs 1 s.pins.inData
  rw [if_neg (by decide)] at hstore
  have hcnt : (beginCycle s).cnt.toNat = 1 := by rw [beginCycle_cnt, hn]; rfl
  refine ⟨(tag_tagClass _).2, ?_⟩
  rw [step_of_no_reset hr, cycleBody_tag (s := beginCycle s) hs,
    readCycle_done (s := beginCycle s) _ hc hv (readLen_tag hs) (by rw [hcnt]) (by rw [hcnt]; exact hstore)]
  rfl

/-- Settles O25: the state, and in `S_EMIT` the kind of the pending event, selects the operation. -/
theorem stepContinuesTheFrameInProgress : Obligations.StepContinuesTheFrameInProgress := by
  intro s i hr h
  rw [step_of_no_reset hr]
  congr 1
  rcases h with ⟨hs, rfl⟩ | ⟨hs | hs | hs, rfl⟩ | ⟨hs, hkind⟩
  · simp only [cycleBody, beginCycle_st, hs]
  · simp only [cycleBody, beginCycle_st, hs]
  · simp only [cycleBody, beginCycle_st, hs]
  · simp only [cycleBody, beginCycle_st, hs]
  · rcases hkind with ⟨hk, rfl⟩ | ⟨hk, rfl⟩ | ⟨hk, rfl⟩ | ⟨hk, rfl⟩ <;>
      simp only [cycleBody, pendingInstr, beginCycle_st, beginCycle_evk, beginCycle_tag, hs, hk]

/-! ### the cycles of an operation, state by state -/

theorem exec_dbg_of_dbg {s : State} (hs : s.st = .dbg) : exec .dbg s = readCycle (fun t => .next (present .debug t)) s := by
  simp only [exec, execDbg, hs]

theorem exec_trc_of_tlen {s : State} (hs : s.st = .tlen) : exec .trc s = readCycle (fun t => .next (lengthComplete t)) s := by
  simp only [exec, execTrc, hs]

theorem exec_trc_of_tbuf {s : State} (hs : s.st = .tbuf) : exec .trc s = readCycle (fun t => .next { t with st := .dec }) s := by
  simp only [exec, execTrc, hs]

theorem exec_trc_of_dec {s : State} (hs : s.st = .dec) : exec .trc s = .next (decCycle s) := by
  simp only [exec, execTrc, hs]

section
variable {s : State} (hs : s.st = .emit)
include hs

theorem exec_dbg_of_emit : exec .dbg s = .next (awaitHandshake (startRead .tag) s) := by simp only [exec, execDbg, hs]

theorem exec_trc_of_emit : exec .trc s = .next (awaitHandshake (startRead .tag) s) := by simp only [exec, execTrc, hs]

theorem exec_endSession_of_emit : exec .endSession s = .next (awaitHandshake (endSession .sessionEnded) s) := by
  simp only [exec, execEndSession, hs]

theorem exec_unrec_of_emit (tag : Half) : exec (.unrec tag) s = .next (awaitHandshake (endSession .unrecognizedTag) s) := by
  simp only [exec, execUnrec, hs]

theorem handedOver_of_ready (h : s.pins.evReady = true) : handedOver s = [presentedEvent s] := by
  rw [handedOver_eq, if_pos ⟨hs, h⟩]

end

/-! ### a byte of a frame (R61, R62) -/

theorem ofNat_toNat_succ (c : Half) : BitVec.ofNat 16 (c.toNat + 1) = c + 1 := by
  rw [BitVec.ofNat_add, BitVec.ofNat_toNat, BitVec.setWidth_eq]
  rfl

/-- A payload or buffer byte is stored at `cnt`; it completes the read, is cut short by a timeout, or is counted. -/
theorem readCycle_bodyByte {s : State} (complete : State → Result) (hs : s.st = .dbg ∨ s.st = .tbuf) (hlt : s.cnt.toNat < readLen s)
    (hc : s.pins.inClosed = false) (hv : s.pins.inValid = true) :
    readCycle complete s =
      if s.cnt.toNat + 1 = readLen s then complete { s with fb := s.fb.write s.cnt.toNat s.pins.inData, cnt := 0 }
      else if s.pins.inTimeout = true then
        .next { s with fb := s.fb.write s.cnt.toNat s.pins.inData, cause := .truncatedFrame, st := .drain, dcnt := 0, cnt := 0 }
      else .next { s with fb := s.fb.write s.cnt.toNat s.pins.inData, cnt := s.cnt + 1 } := by
  have hstore := store_body hs s.pins.inData (hlt.trans_le (readLen_le s))
  by_cases hn : s.cnt.toNat + 1 = readLen s
  · rw [if_pos hn, readCycle_done complete hc hv rfl hn hstore]
  · rw [if_neg hn, readCycle_short complete hc hv hn hstore]
    cases ht : s.pins.inTimeout
    · rw [countByte_more (by exact ht), ofNat_toNat_succ]
      rfl
    · rw [countByte_timeout (by exact ht)]
      rfl

/-- Settles O40: count 541 is the last of 542. -/
theorem debugPayloadByteIsStored : Obligations.DebugPayloadByteIsStored := by
  intro s hs hlt hc hv
  have hlen := readLen_dbg hs
  have hlast : s.cnt = 541 ↔ s.cnt.toNat + 1 = 542 := by rw [← BitVec.toNat_inj]; simp
  rw [exec_dbg_of_dbg hs, readCycle_bodyByte _ (.inl hs) (by omega) hc hv, hlen]
  simp only [hlast, present, apply_ite Host.Outcome.next]

/-- Settles O42: a count below `tlen` has a successor in 16 bits. -/
theorem traceBufferByteIsStored : Obligations.TraceBufferByteIsStored := by
  intro s hs hlt hc hv
  have hlen := readLen_tbuf hs
  have hlast : s.cnt + 1 = s.tlen ↔ s.cnt.toNat + 1 = s.tlen.toNat := by
    rw [← BitVec.toNat_inj, BitVec.toNat_add_of_lt (by have := s.tlen.isLt; simp; omega)]
    rfl
  rw [exec_trc_of_tbuf hs, readCycle_bodyByte _ (.inr hs) (by omega) hc hv, hlen]
  simp only [hlast, apply_ite Host.Outcome.next]

/-- Settles O41: byte 0 of the length is stored low and counted, byte 1 high, and it completes the length. -/
theorem traceLengthBytesAreLittleEndian : Obligations.TraceLengthBytesAreLittleEndian := by
  intro s hs hc hv ht
  have hlen := readLen_tlen hs
  have hstore := store_tlen hs s.cnt.toNat s.pins.inData
  rw [exec_trc_of_tlen hs]
  refine ⟨fun hn => ?_, fun hn => ?_⟩
  · have hn0 : s.cnt.toNat = 0 := by rw [hn]; rfl
    rw [readCycle_short _ hc hv (by omega) hstore, countByte_more (by exact ht), hn0]
    rfl
  · have hn1 : s.cnt.toNat = 1 := by rw [hn]; rfl
    rw [if_neg (by omega)] at hstore
    rw [readCycle_done _ hc hv hlen (by omega) hstore]
    show Host.Outcome.next (lengthComplete { s with tlen := halfOfBytes (loByte s.tlen) s.pins.inData, cnt := 0 }) = _
    rw [lengthComplete]
    split
    next h0 => rw [h0]
    next => rfl

/-! ### the record check (R65) -/

/-- Settles O43: the check compares the length with 8 and with `need`. -/
theorem recordCheckPresentsOrTruncates : Obligations.RecordCheckPresentsOrTruncates := by
  intro s hs
  refine ⟨?_, fun plIdx => by simp [outputs, inReady, hs, St.isRead]⟩
  rw [exec_trc_of_dec hs, ← need_eq]
  simp only [← trdCheck_ok_iff]
  cases hk : trdCheck s.tlen.toNat s.fb <;> simp [decCycle, hk, present, raiseError, Error.cause]

/-! ### the handshakes (R66, R71) -/

/-- Settles O44: the port shows the clamped text byte by byte. -/
theorem debugHandshakeHandsOverTheMessage : Obligations.DebugHandshakeHandsOverTheMessage := by
  intro s hs hk hready
  rw [exec_dbg_of_emit hs, awaitHandshake_ready _ hready, handedOver_of_ready hs hready, presentedEvent_debug hs hk]
  exact ⟨rfl, rfl⟩

/-- A decoded record is the one the event carries, field by field (R55, R71). -/
theorem traceEventIn_eq {len : Nat} {m : Memory} {r : TraceRecord} (h : decodeTraceRecord len m = some r) :
    traceEventIn m = { timestamp := r.timestamp, duration := r.duration, direction := r.direction, dataLen := r.dataLen.zeroExtend 16, data := r.data,
                       parity := r.parity, parOk := r.parOk, pbit := (List.range r.dataLen.toNat).map (pbit m) } := by
  unfold decodeTraceRecord at h
  split at h
  · cases h
  · cases h
    rfl

/-- Settles O45: the event and the decoded record read the same fields of FB. -/
theorem traceHandshakeHandsOverTheRecord : Obligations.TraceHandshakeHandsOverTheRecord := by
  intro s r hs hk hready hrec
  rw [exec_trc_of_emit hs, awaitHandshake_ready _ hready, handedOver_of_ready hs hready, presentedEvent_trace hs hk, traceEventIn_eq hrec]
  exact ⟨rfl, rfl⟩

/-- The pending UnrecognizedTag carries the tag register (R77). -/
theorem presentedEvent_unrec {s : State} (hs : s.st = .emit) (hk : s.evk = .unrec) : presentedEvent s = .unrecognizedTag s.tag := by
  simp only [presentedEvent, eventPort, hs, hk, if_true, unrecPort]

/-- Settles O46: each handshake writes its cause and begins the drain. -/
theorem endingHandshakesRecordTheirCause : Obligations.EndingHandshakesRecordTheirCause := by
  intro s hs hready
  rw [exec_endSession_of_emit hs, exec_unrec_of_emit hs, awaitHandshake_ready _ hready, awaitHandshake_ready _ hready,
    handedOver_of_ready hs hready]
  refine ⟨fun hk => ⟨rfl, ?_⟩, fun hk => ⟨rfl, ?_⟩⟩
  · simp only [presentedEvent, hk]
  · rw [presentedEvent_unrec hs hk]

/-! ### the event port of the ending events and outside `S_EMIT` (R66, R76, R77) -/

/-- Settles O50: the port follows `st` and `evk`, and the invariant ties the tag to them. -/
theorem outputsOfEndingEventsAndOutsideEmit : Obligations.OutputsOfEndingEventsAndOutsideEmit := by
  intro s plIdx
  have hvalid (hs : s.st = .emit) : (outputs s plIdx).evValid = true := by simp [outputs, evValid, hs]
  refine ⟨fun hs hk => ⟨hvalid hs, ?_, fun h => h.tag_of_ended hs hk⟩,
    fun hs hk => ⟨hvalid hs, ?_, fun h => (isUnrecTag_iff _).1 (h.tag_of_unrec hs hk)⟩, fun hs => ⟨by simp [outputs, evValid, hs], ?_⟩⟩
  · simp [outputs, eventPort, hs, hk, endedPort, EventKind.code]
  · simp [outputs, eventPort, hs, hk, unrecPort, EventKind.code]
  · simp [outputs, eventPort, hs]

/-! ### the frame of the operations -/

/-- Which registers of a frame a transition may write, and where (R61, R64, R66, R79). -/
structure RegisterFrame (s t : State) : Prop where
  tag : s.st ≠ .tag → t.tag = s.tag
  tlen : t.tlen = s.tlen ∨ (s.st = .tlen ∧ s.pins.inValid = true)
  evk : t.evk = s.evk ∨ t.st = .emit
  ending : t.cause = s.cause ∧ t.dcnt = s.dcnt ∨ t.st = .drain

/-- A stored byte goes to the register of its state, or to the frame buffer. -/
theorem registerFrame_of_store {c : Nat} {b : Byte} {s u : State} (hr : s.st.isRead = true) (hv : s.pins.inValid = true)
    (hu : store c b s = .next u) : RegisterFrame s u := by
  rcases store_eq_next hr hu with ⟨hs, rfl⟩ | ⟨hs, rfl⟩ | ⟨_, _, rfl⟩
  · exact ⟨fun hne => absurd hs hne, .inl rfl, .inl rfl, .inl ⟨rfl, rfl⟩⟩
  · exact ⟨fun _ => rfl, .inr ⟨hs, hv⟩, .inl rfl, .inl ⟨rfl, rfl⟩⟩
  · exact ⟨fun _ => rfl, .inl rfl, .inl rfl, .inl ⟨rfl, rfl⟩⟩

theorem cycleStep_registerFrame {s t : State} (h : CycleStep s t) : RegisterFrame s t := by
  cases h with
  | idleWait | idleStart | readWait | idleTimeout | tbufDone | emitWait | emitFrame | drainStop | term =>
    exact ⟨fun _ => rfl, .inl rfl, .inl rfl, .inl ⟨rfl, rfl⟩⟩
  | closed | timeout | decTruncated | emitEnded | emitUnrec => exact ⟨fun _ => rfl, .inl rfl, .inl rfl, .inr rfl⟩
  | dbgDone | decOk => exact ⟨fun _ => rfl, .inl rfl, .inr rfl, .inl ⟨rfl, rfl⟩⟩
  | drainByte hs => exact ⟨fun _ => rfl, .inl rfl, .inl rfl, .inr hs⟩
  | byteMore hr hc hv ht hn u hu =>
    obtain ⟨htag, htlen, hevk, hending⟩ := registerFrame_of_store hr hv hu
    exact ⟨htag, htlen, hevk, hending⟩
  | byteTimeout hr hc hv ht hn u hu =>
    obtain ⟨htag, htlen, _, _⟩ := registerFrame_of_store hr hv hu
    exact ⟨htag, htlen, .inl (by rw [store_frame hu]; rfl), .inr rfl⟩
  | tagDone hs hc hv hn t ht =>
    rcases exec_tagClass_cases hs ht with ⟨_, rfl⟩ | ⟨_, rfl⟩ | ⟨_, rfl⟩ | ⟨_, rfl⟩
    · exact ⟨fun hne => absurd hs hne, .inl rfl, .inl rfl, .inl ⟨rfl, rfl⟩⟩
    · exact ⟨fun hne => absurd hs hne, .inl rfl, .inl rfl, .inl ⟨rfl, rfl⟩⟩
    · exact ⟨fun hne => absurd hs hne, .inl rfl, .inr rfl, .inl ⟨rfl, rfl⟩⟩
    · exact ⟨fun hne => absurd hs hne, .inl rfl, .inr rfl, .inl ⟨rfl, rfl⟩⟩
  | tlenDone hs hc hv hn =>
    rcases lengthComplete_cases { s with tlen := setHiByte s.tlen s.pins.inData, cnt := 0 } with ⟨_, heq⟩ | ⟨_, heq⟩ <;> rw [heq] <;>
      exact ⟨fun _ => rfl, .inr ⟨hs, hv⟩, .inl rfl, .inl ⟨rfl, rfl⟩⟩

/-- In a read state closure leaves one transition (R60, R63). -/
theorem cycleStep_of_closed {s t : State} (hr : s.st.isRead = true) (hc : s.pins.inClosed = true) (h : CycleStep s t) :
    t = raiseError .transportClosed s :=
  Host.Outcome.next.inj ((cycleBody_of_cycleStep h).symm.trans (cycleBody_of_cycleStep (.closed hr hc)))

/-- A byte of the frame buffer reads as before, or is the byte taken at `cnt` in a cycle without closure. -/
theorem cycleStep_read_fb {s t : State} (hfb : s.fb.wf = true) (h : CycleStep s t) (off : Nat) :
    t.fb.read off = s.fb.read off
      ∨ ((s.st = .dbg ∨ s.st = .tbuf) ∧ off = s.cnt.toNat ∧ s.pins.inClosed = false ∧ s.pins.inValid = true ∧ t.fb.read off = s.pins.inData) := by
  rcases cycleStep_fb h with hkeep | ⟨hs, hv, hwrite⟩
  · exact .inl (congrArg (Memory.read · off) hkeep)
  cases hc : s.pins.inClosed
  · have hread : t.fb.read off = if s.cnt.toNat = off then s.pins.inData else s.fb.read off := by
      rw [hwrite]
      exact Memory.read_write hfb off
    by_cases hoff : s.cnt.toNat = off
    · exact .inr ⟨hs, hoff.symm, rfl, hv, hread.trans (if_pos hoff)⟩
    · exact .inl (hread.trans (if_neg hoff))
  · have hr : s.st.isRead = true := by rcases hs with hs | hs <;> rw [hs] <;> rfl
    rw [cycleStep_of_closed hr hc h]
    exact .inl rfl

theorem awaitHandshake_cases (after : State → State) (s : State) : awaitHandshake after s = s ∨ awaitHandshake after s = after s := by
  cases h : s.pins.evReady
  · exact .inl (awaitHandshake_wait after h)
  · exact .inr (awaitHandshake_ready after h)

/-- A cycle of an operation does nothing, begins a read, presents an event, ends the session, or is a transition of one of the states in which the
operation reads its frame or checks it. -/
theorem exec_cases {i : Instr} {s t : State} (h : exec i s = .next t) :
    t = s ∨ (∃ x, t = startRead x s) ∨ (∃ k, t = present k s) ∨ (∃ c, t = endSession c s)
      ∨ ((i = .dbg ∧ s.st = .dbg ∨ i = .trc ∧ (s.st = .tlen ∨ s.st = .tbuf ∨ s.st = .dec)) ∧ CycleStep s t) := by
  cases hs : s.st
  case tag =>
    rcases exec_tag hs h with ⟨_, rfl⟩ | ⟨_, rfl⟩ | ⟨_, rfl⟩ | ⟨_, _, rfl⟩
    · exact .inr (.inl ⟨_, rfl⟩)
    · exact .inr (.inl ⟨_, rfl⟩)
    · exact .inr (.inr (.inl ⟨_, rfl⟩))
    · exact .inr (.inr (.inl ⟨_, rfl⟩))
  case emit =>
    cases i with
    | dbg | trc =>
      simp only [exec, execDbg, execTrc, hs] at h
      cases h
      exact (awaitHandshake_cases _ s).imp_right fun he => .inl ⟨_, he⟩
    | endSession | unrec =>
      simp only [exec, execEndSession, execUnrec, hs] at h
      cases h
      exact (awaitHandshake_cases _ s).imp_right fun he => .inr (.inr (.inl ⟨_, he⟩))
  case dbg =>
    cases i with
    | dbg => exact .inr (.inr (.inr (.inr ⟨.inl ⟨rfl, rfl⟩, cycleBody_cases (by simpa only [cycleBody, hs] using h)⟩)))
    | trc | endSession | unrec =>
      simp only [exec, execTrc, execEndSession, execUnrec, hs] at h
      cases h
      exact .inl rfl
  case tlen | tbuf | dec =>
    cases i with
    | trc => exact .inr (.inr (.inr (.inr ⟨.inr ⟨rfl, by simp⟩, cycleBody_cases (by simpa only [cycleBody, hs] using h)⟩)))
    | dbg | endSession | unrec =>
      simp only [exec, execDbg, execEndSession, execUnrec, hs] at h
      cases h
      exact .inl rfl
  case idle | drain | term =>
    cases i <;> simp only [exec, execDbg, execTrc, execEndSession, execUnrec, hs] at h <;> cases h <;> exact .inl rfl

/-- What a cycle of operation `i` may write, and where. -/
structure OperationFrame (i : Instr) (s t : State) : Prop where
  tag : t.tag = s.tag
  surroundings : SameSurroundings s t
  tlen : t.tlen = s.tlen ∨ (i = .trc ∧ s.st = .tlen ∧ s.pins.inValid = true)
  evk : t.evk = s.evk ∨ t.st = .emit
  ending : t.cause = s.cause ∧ t.dcnt = s.dcnt ∨ t.st = .drain
  fb : ∀ off, t.fb.read off = s.fb.read off
    ∨ ((i = .dbg ∧ s.st = .dbg ∨ i = .trc ∧ s.st = .tbuf) ∧ off = s.cnt.toNat ∧ s.pins.inClosed = false ∧ s.pins.inValid = true
      ∧ t.fb.read off = s.pins.inData)

/-- A transition of the operation's own state: the trace length is TRC's, and each operation has one state that writes the frame buffer. -/
theorem operationFrame_of_cycleStep {i : Instr} {s t : State} (hfb : s.fb.wf = true)
    (hi : i = .dbg ∧ s.st = .dbg ∨ i = .trc ∧ (s.st = .tlen ∨ s.st = .tbuf ∨ s.st = .dec)) (h : CycleStep s t) : OperationFrame i s t := by
  obtain ⟨htag, htlen, hevk, hending⟩ := cycleStep_registerFrame h
  refine ⟨htag ?_, cycleStep_sameSurroundings h, htlen.imp_right fun ⟨hs, hv⟩ => ⟨?_, hs, hv⟩, hevk, hending, fun off =>
    (cycleStep_read_fb hfb h off).imp_right fun ⟨hs, hbyte⟩ => ⟨?_, hbyte⟩⟩
  · rcases hi with ⟨_, hs⟩ | ⟨_, hs | hs | hs⟩ <;> simp [hs]
  · simpa [hs] using hi
  · rcases hs with hs | hs <;> simpa [hs] using hi

theorem operationFrame_of_exec {i : Instr} {s t : State} (hfb : s.fb.wf = true) (h : exec i s = .next t) : OperationFrame i s t := by
  have hsame := SameSurroundings.refl s
  rcases exec_cases h with rfl | ⟨x, rfl⟩ | ⟨k, rfl⟩ | ⟨c, rfl⟩ | ⟨hi, hstep⟩
  · exact ⟨rfl, hsame, .inl rfl, .inl rfl, .inl ⟨rfl, rfl⟩, fun _ => .inl rfl⟩
  · exact ⟨rfl, { hsame with }, .inl rfl, .inl rfl, .inl ⟨rfl, rfl⟩, fun _ => .inl rfl⟩
  · exact ⟨rfl, { hsame with }, .inl rfl, .inr rfl, .inl ⟨rfl, rfl⟩, fun _ => .inl rfl⟩
  · exact ⟨rfl, { hsame with }, .inl rfl, .inl rfl, .inr rfl, fun _ => .inl rfl⟩
  · exact operationFrame_of_cycleStep hfb hi hstep

/-- Settles O47: outside its own states an operation begins a read, presents an event, ends the session or does nothing. -/
theorem operationsChangeOnlyTheirRegisters : Obligations.OperationsChangeOnlyTheirRegisters := by
  intro i s t hfb h
  obtain ⟨htag, ⟨hdrain, hinputs, hevents, htaken⟩, htlen, hevk, hending, hread⟩ := operationFrame_of_exec hfb h
  exact ⟨htag, hdrain, hinputs, hevents, htaken, htlen, hevk, hending, hread⟩

/-! ### every cycle answers a next state -/

/-- A read cycle whose byte fits the frame buffer goes on, when the completed read does (R23). -/
theorem readCycle_ok {complete : State → Result} {s : State} (hlt : s.cnt.toNat < Config.fbSize)
    (hcomplete : ∀ u : State, u.st = s.st → ∃ t, complete u = .next t) : ∃ t, readCycle complete s = .next t := by
  cases hc : s.pins.inClosed
  case true => exact ⟨_, readCycle_closed complete hc⟩
  cases hv : s.pins.inValid
  case true =>
    obtain ⟨u, hu⟩ := store_ok s.pins.inData s hlt
    by_cases hn : s.cnt.toNat + 1 = readLen s
    · rw [readCycle_done complete hc hv rfl hn hu]
      exact hcomplete _ (by rw [store_frame hu])
    · exact ⟨_, readCycle_short complete hc hv hn hu⟩
  case false =>
    cases ht : s.pins.inTimeout
    · exact ⟨_, readCycle_wait complete hc hv ht⟩
    · exact ⟨_, readCycle_timeout complete hc hv ht⟩

theorem exec_tag_ok (i : Instr) {s : State} (hs : s.st = .tag) : ∃ t, exec i s = .next t := by
  cases i with
  | dbg => exact ⟨_, exec_dbg_of_tag hs⟩
  | trc => exact ⟨_, exec_trc_of_tag hs⟩
  | endSession => exact ⟨_, exec_endSession_of_tag hs⟩
  | unrec tag => exact ⟨_, exec_unrec_of_tag hs tag⟩

/-- The case of a cycle goes on when no read's count lies beyond the frame buffer. -/
theorem cycleBody_ok {s : State} (hlt : s.st.isRead = true → s.cnt.toNat < Config.fbSize) : ∃ t, cycleBody s = .next t := by
  cases hs : s.st
  case idle => exact ⟨_, cycleBody_idle hs⟩
  case tag =>
    rw [cycleBody_tag hs]
    exact readCycle_ok (hlt (by rw [hs]; rfl)) fun u hu => exec_tag_ok _ (hu.trans hs)
  case dbg =>
    rw [cycleBody_dbg hs]
    exact readCycle_ok (hlt (by rw [hs]; rfl)) fun u _ => ⟨_, rfl⟩
  case tlen =>
    rw [cycleBody_tlen hs]
    exact readCycle_ok (hlt (by rw [hs]; rfl)) fun u _ => ⟨_, rfl⟩
  case tbuf =>
    rw [cycleBody_tbuf hs]
    exact readCycle_ok (hlt (by rw [hs]; rfl)) fun u _ => ⟨_, rfl⟩
  case dec => exact ⟨_, cycleBody_dec hs⟩
  case emit => exact ⟨_, cycleBody_emit hs⟩
  case drain => exact ⟨_, cycleBody_drain hs⟩
  case term => exact ⟨_, cycleBody_term hs⟩

/-- Settles O55: the count of a read is below its length, which is at most FB_SIZE. -/
theorem invariantStatesAlwaysStep : Obligations.InvariantStatesAlwaysStep := by
  intro s h
  cases hr : s.pins.rst
  · obtain ⟨t, ht⟩ := cycleBody_ok (s := beginCycle s) fun hread => (h.countBound hread).trans_le (readLen_le s)
    exact ⟨endCycle t, by rw [step_of_no_reset hr, ht, andThen_next]⟩
  · exact ⟨_, step_of_reset hr⟩

end Sys2Proof.Machine
end

section
/-! The event port while a debug or trace event is presented (R73, R75), and whole frames from the first tag byte to the next state of rest (R72, R74, R76,
R77). -/

namespace Sys2Proof.Safety

open Sys2Proof.Machine

/-! ### the port of a presented event -/

theorem Inv.tag_of_debugEvent {s : State} (h : Inv s) (hs : s.st = .emit) (hk : s.evk = .debug) : s.tag = Config.tagDebug := by
  simpa [frameOk, hs, hk] using h.frame

theorem Inv.tag_of_traceEvent {s : State} (h : Inv s) (hs : s.st = .emit) (hk : s.evk = .trace) : s.tag = Config.tagTrace := by
  have hf := h.frame
  simp only [frameOk, hs, hk] at hf
  exact hf.1

theorem evValid_of_emit {s : State} (hs : s.st = .emit) : evValid s = true := decide_eq_true hs

theorem eventPort_of_debug {s : State} (hs : s.st = .emit) (hk : s.evk = .debug) (plIdx : Half) : eventPort s plIdx = debugPort s plIdx := by
  simp only [eventPort, hs, hk, if_true]

theorem eventPort_of_trace {s : State} (hs : s.st = .emit) (hk : s.evk = .trace) (plIdx : Half) : eventPort s plIdx = tracePort s plIdx := by
  simp only [eventPort, hs, hk, if_true]

/-- Settles O48: the port is `debugPort`, and the invariant ties the tag to the pending event. -/
theorem outputsWhileADebugMessageIsPresented : Obligations.OutputsWhileADebugMessageIsPresented :=
  fun _ plIdx hs hk => ⟨evValid_of_emit hs, eventPort_of_debug hs hk plIdx, fun h => h.tag_of_debugEvent hs hk⟩

/-- Settles O49: the port is `tracePort`, and the invariant ties the tag and the record check to the pending event. -/
theorem outputsWhileATraceRecordIsPresented : Obligations.OutputsWhileATraceRecordIsPresented :=
  fun _ plIdx hs hk =>
    ⟨evValid_of_emit hs, eventPort_of_trace hs hk plIdx, fun h => ⟨h.tag_of_traceEvent hs hk, h.check_of_trace hs hk⟩⟩

end Sys2Proof.Safety

namespace Sys2Proof.Machine

/-! ### the frame buffer after a frame -/

/-- A body written from offset 0 on reads back, and no byte after it is changed. -/
theorem Memory.read_writeAll_zero {m : Memory} {bs : List Byte} (h : m.wf = true) (hl : bs.length ≤ Config.fbSize) (off : Nat) :
    (m.writeAll 0 bs).read off = if off < bs.length then bs.getD off 0 else m.read off := by
  simpa using Memory.read_writeAll (c := 0) h (by omega) off

/-- A length that fits 16 bits fits the frame buffer (R5, R14). -/
theorem le_fbSize_of_lt {n : Nat} (h : n < 65536) : n ≤ Config.fbSize := Nat.le_of_lt_succ h

/-! ### frames that keep the session going -/

/-- Settles O56: the run of a debug frame leaves the payload in FB. -/
theorem debugFrameRunsFromTagToTag : Obligations.DebugFrameRunsFromTagToTag := by
  intro s payload rest hs hn hfb hl hin
  refine ⟨_, run_dbgFrame hs hn hfb hl hin, rfl, fun off => ?_⟩
  rw [← hl]
  exact Memory.read_writeAll_zero hfb (le_fbSize_of_lt (by omega)) off

/-- Settles O57: the run of a trace frame leaves the buffer in FB. -/
theorem traceFrameRunsFromTagToTag : Obligations.TraceFrameRunsFromTagToTag := by
  intro s buffer e rest hs hn hfb hl he hin
  exact ⟨_, run_trcFrame hs hn hfb hl he hin, rfl, Memory.read_writeAll_zero hfb (le_fbSize_of_lt hl)⟩

/-! ### a truncated record -/

/-- A record without an event, once it is in the frame buffer, fails the check (R50, R55). -/
theorem trdCheck_of_traceEventOf_none {m : Memory} {buffer : List Byte} (h : m.Holds buffer) (he : traceEventOf buffer = none) :
    trdCheck buffer.length m = .truncatedRecord := by
  rw [trdCheck_truncated_iff]
  intro hok
  rw [traceEventOf_eq h, if_pos hok] at he
  cases he

/-- A check cycle that the record fails (R65, R79). -/
theorem step_check_truncated {s : State} {tl : List Inputs} (hs : s.st = .dec) (hbad : trdCheck s.tlen.toNat s.fb = .truncatedRecord)
    (hin : s.inputs = Inputs.quiet :: tl) :
    step s = .next { s with st := .drain, cause := .truncatedRecord, dcnt := 0, cnt := 0, rdq := false, inputs := tl } := by
  have hdec : decCycle { s with rdq := false } = raiseError .truncatedRecord { s with rdq := false } := by rw [decCycle, hbad]
  rw [step_check hs hin, hdec]
  simp [endCycle, raiseError, Error.cause, hin]

/-- A trace frame whose record fails the check, from the tag to the drain (R74). -/
theorem run_truncatedTrcFrame {s : State} {buffer : List Byte} {tl : List Inputs} (hs : s.st = .tag) (hn : s.cnt = 0) (hfb : s.fb.wf = true)
    (hl : buffer.length < 65536) (he : traceEventOf buffer = none)
    (hin : s.inputs = (Frame.trc buffer).bytes.map byteCycle ++ Inputs.quiet :: tl) :
    runSteps (buffer.length + 5) s
      = .next { s with st := .drain, cause := .truncatedRecord, dcnt := 0, tag := Config.tagTrace, tlen := BitVec.ofNat 16 buffer.length,
                       rdq := false, fb := s.fb.writeAll 0 buffer, inputs := tl, taken := s.taken + 4 + buffer.length } := by
  have hbad := trdCheck_of_traceEventOf_none (Memory.holds_writeAll hfb (le_fbSize_of_lt hl)) he
  refine runSteps_trans (m := buffer.length + 4) (n := 1) (run_trcBytes hs hn hl hin) (runSteps_one ?_)
  rw [step_check_truncated rfl (by rw [toNat_ofNat_half hl]; exact hbad) rfl, hn]

/-- Settles O58: the run of a truncated trace frame leaves the buffer in FB. -/
theorem truncatedTraceFrameEndsTheSession : Obligations.TruncatedTraceFrameEndsTheSession := by
  intro s buffer rest hs hn hfb hl he hin
  exact ⟨_, run_truncatedTrcFrame hs hn hfb hl he hin, rfl, Memory.read_writeAll_zero hfb (le_fbSize_of_lt hl)⟩

/-! ### frames that end the session -/

/-- The handshake of UnrecognizedTag (R66, R77). -/
theorem step_unrecHandshake {s : State} {tl : List Inputs} (hs : s.st = .emit) (hk : s.evk = .unrec) (hin : s.inputs = readyCycle :: tl) :
    step s = .next { s with st := .drain, cause := .unrecognizedTag, dcnt := 0, rdq := false, inputs := tl,
                            events := s.events ++ [.unrecognizedTag s.tag] } := by
  have hp := State.pins_of_inputs hin
  have hready : s.pins.evReady = true := by rw [hp]; rfl
  have hbytes : bytesTaken s = 0 := bytesTaken_of_not_ready (by simp [inReady, hs, St.isRead])
  rw [step_of_cycleStep (by rw [hp]; rfl) (.emitUnrec (s := beginCycle s) hs hready hk), beginCycle, handedOver_of_ready hs hready,
    presentedEvent_unrec hs hk, hbytes]
  simp [endCycle, endSession, hin]

/-- An UNREC frame, from the tag to the drain (R77). -/
theorem run_unrecFrame {s : State} {tag : Half} {tl : List Inputs} (hs : s.st = .tag) (hn : s.cnt = 0) (htag : isUnrecTag tag = true)
    (hin : s.inputs = (Frame.unrec tag).cycles ++ tl) :
    runSteps 3 s
      = .next { s with st := .drain, tag := tag, evk := .unrec, cause := .unrecognizedTag, dcnt := 0, rdq := false, inputs := tl,
                       events := s.events ++ [.unrecognizedTag tag], taken := s.taken + 2 } := by
  have hread := run_tag (i := .unrec tag) (tl := readyCycle :: tl) htag hs hn hin (by simp only [exec, execUnrec, hs]; rfl)
  exact runSteps_trans hread (runSteps_one (step_unrecHandshake rfl rfl rfl))

/-- A byte that the drain discards, below its bound (R67). -/
theorem step_drainByte {s : State} {b : Byte} {tl : List Inputs} (hs : s.st = .drain) (hlt : s.dcnt < s.drainMax) (hin : s.inputs = byteCycle b :: tl) :
    step s = .next { s with dcnt := s.dcnt + 1, rdq := false, inputs := tl, taken := s.taken + 1 } := by
  have hp := State.pins_of_inputs hin
  have hgoes : ¬ (s.pins.inClosed = true ∨ s.pins.inValid = false ∨ s.dcnt = s.drainMax) := by
    rw [hp]
    simp [byteCycle, Inputs.quiet, hlt.ne]
  rw [Safety.drainDiscardsOneByteOrStops s hs hlt.le (by rw [hp]; rfl), if_neg hgoes, hin, List.tail_cons]

/-- A drain that discards a list of bytes within its bound and stops at the first cycle without one (R67). -/
theorem run_drain (bs : List Byte) {s : State} {tl : List Inputs} (hs : s.st = .drain) (hle : s.dcnt + bs.length ≤ s.drainMax)
    (hin : s.inputs = bs.map byteCycle ++ Inputs.quiet :: tl) :
    runSteps (bs.length + 1) s
      = .next { s with st := .term, dcnt := s.dcnt + bs.length, rdq := false, inputs := tl, taken := s.taken + bs.length } := by
  induction bs generalizing s with
  | nil => exact runSteps_one (step_drain_quiet hs hin)
  | cons b bs ih =>
    rw [List.length_cons] at hle ⊢
    rw [Safety.runSteps_succ_of_step (step_drainByte hs (by omega) hin), ih (by exact hs) (by dsimp only; omega) rfl]
    simp only [Nat.add_assoc, Nat.add_comm 1]

/-- Settles O59: the frame leads to the drain in 3 cycles, which discards the bytes and stops in the cycle after them. -/
theorem endingFrameRunsToTermination : Obligations.EndingFrameRunsToTermination := by
  intro s f drained rest hs hn hf hle hin
  rw [List.append_assoc] at hin
  have hcycles : drained.length + 4 = 3 + (drained.length + 1) := by omega
  have hbound : 0 + drained.length ≤ s.drainMax := by omega
  rw [hcycles]
  refine ⟨?_, fun tag => ?_⟩
  · rintro rfl
    have hdrain := runSteps_trans (run_endFrame hs hn hin) (run_drain drained rfl hbound rfl)
    rwa [Nat.zero_add] at hdrain
  · rintro rfl
    have hdrain := runSteps_trans (run_unrecFrame hs hn hf hin) (run_drain drained rfl hbound rfl)
    rwa [Nat.zero_add] at hdrain

end Sys2Proof.Machine
end

section
/-! The cycles in which a state waits for its environment: a read with nothing presented, and a presented event with no consumer ready (R88). -/

namespace Sys2Proof.Safety

open Sys2Proof.Machine

/-- A read state with nothing presented waits (R60). -/
theorem step_readWait {s : State} (hr : s.pins.rst = false) (hread : s.st.isRead = true) (hc : s.pins.inClosed = false)
    (hv : s.pins.inValid = false) (ht : s.pins.inTimeout = false) :
    step s = .next { s with rdq := false, inputs := s.inputs.tail } := by
  rw [step_of_cycleStep hr (.readWait hread hc hv ht), beginCycle_of_isRead hread, if_neg (by simp [hv])]
  rfl

/-- `S_EMIT` with no consumer ready waits, and no handshake is recorded (R66, R69). -/
theorem step_emitWait {s : State} (hr : s.pins.rst = false) (hs : s.st = .emit) (hready : s.pins.evReady = false) :
    step s = .next { s with rdq := false, inputs := s.inputs.tail } := by
  have hover : handedOver s = [] := by rw [handedOver_eq, if_neg (by simp [hready])]
  have htaken : bytesTaken s = 0 := bytesTaken_of_not_ready (by simp [inReady, hs, St.isRead])
  rw [step_of_cycleStep hr (.emitWait hs hready), beginCycle, hover, htaken, List.append_nil]
  rfl

/-- Settles O39: either waiting state begins its cycle without a handshake, and its case of the cycle is to stay. -/
theorem waitingChangesNoRegister : Obligations.WaitingChangesNoRegister := by
  rintro s hr (⟨hread, hc, hv, ht⟩ | ⟨hs, hready⟩)
  · exact step_readWait hr hread hc hv ht
  · exact step_emitWait hr hs hready

end Sys2Proof.Safety
end

section
/-! Reset (R89), and the hazards of a presented event: stable until the handshake, gone after it (R92, R93). -/

namespace Sys2Proof.Safety

open Sys2Proof.Machine

/-! ### a presented event -/

/-- Outside the read states the read-start flag is down (R18, R57). -/
theorem Inv.rdq_of_not_isRead {s : State} (h : Inv s) (hr : s.st.isRead = false) : s.rdq = false :=
  Bool.eq_false_iff.2 fun hq => by simp [(h.readStart hq).1] at hr

/-- Settles O51: the waiting step only clears `rdq`, which the invariant keeps at 0 in `S_EMIT`, and the outputs take nothing from the pins. -/
theorem presentedEventIsStable : Obligations.PresentedEventIsStable := by
  intro s h hs hr hready
  have hq : s.rdq = false := h.rdq_of_not_isRead (by simp [hs, St.isRead])
  have hstep : step s = .next { s with inputs := s.inputs.tail } := by rw [step_emitWait hr hs hready, ← hq]
  refine ⟨hstep, fun t plIdx ht => ?_⟩
  cases hstep.symm.trans ht
  exact (outputsIgnoreEveryInputButPayloadIndex s s.inputs.tail s.events s.taken plIdx plIdx).1

/-- The handshake of every kind of event leaves `S_EMIT`: for the next tag read, or for the drain (R66). -/
theorem afterHandshake_st_ne_emit (s t : State) : (afterHandshake s t).st ≠ .emit := by
  unfold afterHandshake
  cases s.evk <;> nofun

/-- `S_EMIT` with the consumer ready makes the handshake of the pending event (R66). -/
theorem step_emitHandshake {s : State} (hr : s.pins.rst = false) (hs : s.st = .emit) (hready : s.pins.evReady = true) :
    step s = .next (endCycle (afterHandshake (beginCycle s) (beginCycle s))) := by
  rw [step_of_no_reset hr, cycleBody_emit (s := beginCycle s) hs, awaitHandshake_ready (s := beginCycle s) _ hready, andThen_next]

/-- Settles O52: the handshake leaves `S_EMIT`, and outside it the event port is 0. -/
theorem payloadViewEndsAtTheHandshake : Obligations.PayloadViewEndsAtTheHandshake := by
  intro s t hs hr hready ht
  cases (step_emitHandshake hr hs hready).symm.trans ht
  have hne := afterHandshake_st_ne_emit (beginCycle s) (beginCycle s)
  exact ⟨hne, fun plIdx => (outputsOfEndingEventsAndOutsideEmit _ plIdx).2.2 hne⟩

/-! ### reset -/

/-- Settles O1: `State.resetWith` lists the reset value of every register. -/
theorem resetLeavesEveryRegisterAtItsResetValue : Obligations.ResetLeavesEveryRegisterAtItsResetValue :=
  fun _ _ => ⟨rfl, rfl, rfl, rfl, rfl, rfl, rfl, rfl, rfl, rfl, rfl, rfl, rfl, rfl⟩

/-- With `S_IDLE`, `C_NONE` and `rdq` at 0 in the registers every output is 0, whatever FB holds (R19 to R22, R66). -/
theorem outputs_of_idle {s : State} (hs : s.st = .idle) (hq : s.rdq = false) (hc : s.cause = .noCause) (plIdx : Half) :
    outputs s plIdx = { inReady := false, rdStart := false, rdLen := 0, evValid := false, port := EventPort.zero, isDone := false,
                        termCause := 0, status := 0x00 } := by
  simp [outputs, inReady, readLen, evValid, eventPort, doneFlag, statusByte, St.isRead, St.code, Cause.code, hs, hq, hc]

/-- Settles O2: the step is `Reset()`, which leaves `S_IDLE` with no cause and no read begun. -/
theorem resetCycleResetsRegistersAndKeepsFrameBuffer : Obligations.ResetCycleResetsRegistersAndKeepsFrameBuffer :=
  fun _ hr => ⟨_, step_of_reset hr, rfl, outputs_of_idle rfl rfl rfl⟩

/-- Settles O53: the state after reset is what `Reset()` makes of itself, with a frame buffer that lists nothing. -/
theorem invariantHoldsAfterReset : Obligations.InvariantHoldsAfterReset :=
  fun drainMax inputs => inv_resetRegisters (s := State.resetWith drainMax inputs) Memory.wf_nil

end Sys2Proof.Safety
end
